-- ==== Sys2Proof/Word.lean ====
section
/-! DEFINITION. The word types of the core: a byte, and a frame of bytes. -/

namespace Sys2Proof

/-- `u8` of R11: one byte of a frame, and one μ-law code unit (R60). -/
abbrev Byte := BitVec 8

/-- A frame (R15, R40): an ordered sequence of bytes, passed by value, of any length, 0 included.
Every byte of it is present; it has no address (R49). -/
abbrev Frame := List Byte

end Sys2Proof
end

