-- ==== Sys2Proof/Config.lean ====
section
/-! DEFINITION. What an implementation fixes when the hardware is built (R7, R25), and the free values.
The constants of R8 and the default values of R7 stand in Machine/Constants.lean. -/

namespace Sys2Proof.Config

/-- `EXP_RULE` of R7 and R125: how the encoder reads "fits within `0xFF << exponent`". -/
inductive ExpRule where
  | bitspan
  | numericLe
deriving DecidableEq, Repr

/-- `ROUND_TIE` of R7 and R147: what the resampler does with a value exactly half way between two integers. -/
inductive RoundTie where
  | halfUp
  | halfAway
  | halfEven
deriving DecidableEq, Repr

/-- `KERNEL` of R7 and R9: this hardware has the linear kernel and no other (log entry 20). -/
inductive Kernel where
  | linear
deriving DecidableEq, Repr

/-- The parameters of R7: fixed when the hardware is built, no request can change them (R25). -/
structure Build where
  /-- `RATE_W`: the width in bits of the signed fields `in_rate` and `out_rate` (R7, R68). -/
  rateW       : Nat
  /-- `LEN_W`: the width in bits of the unsigned fields `in_len` and `out_len` (R7, R68, R69). -/
  lenW        : Nat
  /-- `MAX_IN_BYTES`: the largest `in_len` the implementation accepts (R7, R80). -/
  maxInBytes  : Nat
  /-- `MAX_OUT_BYTES`: the largest `out_len` the implementation can produce (R7, R80). -/
  maxOutBytes : Nat
  expRule     : ExpRule
  roundTie    : RoundTie
  kernel      : Kernel
deriving DecidableEq, Repr

/-- FREE VALUE. What a read at an offset outside the frame would give: R41 says that such a read cannot happen
and has no defined result. No body, so nothing can be proved of it (log entry 15, safe). -/
opaque outsideFrame : Nat → Byte

/-- FREE VALUE. The exponent for a biased magnitude that fits no exponent of 0 to 7: R124 and R125 exclude it
(the biased magnitude is at most 8191), so the spec gives it no value (log entry 15, safe). -/
opaque unfitExponent : Nat → Nat

end Sys2Proof.Config
end

