-- ==== Sys2Proof/Machine/Constants.lean ====
section
/-! DEFINITION. The constants of R8 and the default parameter values of R7. They stand here, not in Config, so
that a test of the hardware that shows another value can be met in one place (91_not_in_source.md N18). -/

namespace Sys2Proof.Machine

/-- `BIAS` of R8: 0x84 = 132 (90_conflicts.md C1, log entry 9). -/
def bias : Nat := 0x84

/-- `MULAW_MAX` of R8: 0x1FFF = 8191. -/
def mulawMax : Nat := 0x1FFF

/-- `RATE_TEL` of R8, in Hz. -/
def rateTel : Nat := 8000

/-- `RATE_ENG` of R8, in Hz. -/
def rateEng : Nat := 24000

/-- `PCM_MIN` of R8. -/
def pcmMin : Int := -32768

/-- `PCM_MAX` of R8. -/
def pcmMax : Int := 32767

/-- The parameters at their defaults (R7): both widths 32, `BITSPAN` (log entry 7), `HALF_UP` (log entry 8), `LINEAR`.
The two bounds are OPEN; DESIGN CHOICE: the largest length a length field holds (unsafe, log entry 5). -/
def defaultBuild : Config.Build :=
  { rateW := 32
    lenW := 32
    maxInBytes := 2 ^ 32 - 1
    maxOutBytes := 2 ^ 32 - 1
    expRule := .bitspan
    roundTie := .halfUp
    kernel := .linear }

end Sys2Proof.Machine
end

