-- ==== Sys2Proof/Syntax.lean ====
section
/-! DEFINITION. The request record (R68), the response record (R69), and the eight operations of the operation
map (R70) with their operands. -/

namespace Sys2Proof

/-- The fields of a request beside `op` (R68): the same for every operation (R71). The widths of the three control
fields are parameters (R7), so a field is held as the number its bits spell; `WF` says that it fits its width (log
entry 6). -/
structure Operands where
  /-- `in_rate`: a pattern of RATE_W bits, read as signed (R75) by RESAMPLE only. -/
  inRate  : Nat
  /-- `out_rate`: a pattern of RATE_W bits, read as signed (R75) by RESAMPLE only. -/
  outRate : Nat
  /-- `in_len`: LEN_W bits, the number of bytes of `IN`. -/
  inLen   : Nat
  /-- `IN`, the input frame. -/
  frame   : Frame
deriving DecidableEq, Repr

/-- A request (R68): the operation number and the other four fields. -/
structure Request extends Operands where
  /-- `op`, the whole opcode (R70). -/
  op : BitVec 3
deriving DecidableEq, Repr

/-- A response (R24, R69). -/
structure Response where
  /-- The error mask; 0 is success (R180). -/
  err    : BitVec 3
  /-- LEN_W bits, the number of bytes of `OUT`; 0 when `err` is not 0. -/
  outLen : Nat
  /-- `OUT`, the output frame; empty when `err` is not 0. -/
  out    : Frame
deriving DecidableEq, Repr

/-- The operations: one constructor per row of the operation map (R70) and per reserved value (R78). -/
inductive Instr where
  | decode    (q : Operands)   -- 000, R100
  | encode    (q : Operands)   -- 001, R120
  | resample  (q : Operands)   -- 010, R140
  | t2e       (q : Operands)   -- 011, R170
  | e2t       (q : Operands)   -- 100, R171
  | reserved5 (q : Operands)   -- 101, R78
  | reserved6 (q : Operands)   -- 110, R78
  | reserved7 (q : Operands)   -- 111, R78
deriving DecidableEq, Repr

/-- The fields of the request that carries the operation. -/
def Instr.operands : Instr → Operands
  | .decode q => q
  | .encode q => q
  | .resample q => q
  | .t2e q => q
  | .e2t q => q
  | .reserved5 q => q
  | .reserved6 q => q
  | .reserved7 q => q

end Sys2Proof
end

