-- ==== Sys2Proof/WellFormed.lean ====
section
/-! DEFINITION. Which requests are well formed in a build: every field fits its width, and `in_len` is the number of
bytes of `IN`. Every value of `op`, of the rates and of every byte is legal in a request (R71, R79, R198). -/

namespace Sys2Proof

/-- R32, R68: the fields fit their widths, RATE_W and LEN_W (R7). -/
abbrev Operands.FieldsFit (b : Config.Build) (q : Operands) : Prop :=
  q.inRate < 2 ^ b.rateW ∧ q.outRate < 2 ^ b.rateW ∧ q.inLen < 2 ^ b.lenW

/-- R68, R198: the fields fit, and `in_len` is the number of bytes of `IN`. -/
abbrev Operands.WF (b : Config.Build) (q : Operands) : Prop :=
  q.FieldsFit b ∧ q.inLen = q.frame.length

/-- An instruction is well formed when its operands are. -/
abbrev Instr.WF (b : Config.Build) (i : Instr) : Prop := i.operands.WF b

end Sys2Proof
end

