-- ==== Sys2Proof/Decode.lean ====
section
/-! DEFINITION. From a request to an instruction and back (R70), and the byte layout this model gives a request.
The spec fixes the fields and their widths and no packing (R68): the layout is the model's, DESIGN CHOICE, log
entry 1. The control fields follow one another from bit 0 in the order of R68: `op` in bits 2 to 0, then `in_rate`
and `out_rate` of RATE_W bits each, then `in_len` of LEN_W bits, then zeros up to a whole byte; the least significant
byte comes first; the bytes of `IN` follow. At the default widths that is `in_rate` in bits 34 to 3, `out_rate` in
bits 66 to 35, `in_len` in bits 98 to 67, and 13 bytes. -/

namespace Sys2Proof

/-- Why bytes or a request are no instruction. -/
inductive DecodeError where
  /-- Fewer bytes than the control fields take (log entry 1). -/
  | shortHeader
  /-- A bit between the control fields and the next whole byte is set (log entry 1). -/
  | paddingNotZero
  /-- A field does not fit its width (R32, R68); no bytes spell such a request. -/
  | fieldTooWide
  /-- `in_len` is not the number of bytes of `IN` (R198). -/
  | lengthMismatch
deriving DecidableEq, Repr

/-- The operation map (R70, R78), total on the 3-bit field. -/
def instrOf (op : BitVec 3) (q : Operands) : Instr :=
  match op.toNat with
  | 0 => .decode q
  | 1 => .encode q
  | 2 => .resample q
  | 3 => .t2e q
  | 4 => .e2t q
  | 5 => .reserved5 q
  | 6 => .reserved6 q
  | _ => .reserved7 q

/-- The instruction of a request (R70); a request with a field that does not fit its width (R32), or whose `in_len`
is not the length of `IN` (R198), is rejected. -/
def decodeRequest (b : Config.Build) (rq : Request) : Except DecodeError Instr :=
  if ¬ rq.FieldsFit b then .error .fieldTooWide
  else if rq.inLen ≠ rq.frame.length then .error .lengthMismatch
  else .ok (instrOf rq.op rq.toOperands)

/-- The number `n` bytes hold, least significant byte first. -/
def leNat : List Byte → Nat
  | [] => 0
  | b :: bs => b.toNat + 256 * leNat bs

/-- The low `n` bytes of a number, least significant byte first. -/
def leBytes : Nat → Nat → List Byte
  | 0, _ => []
  | n + 1, v => BitVec.ofNat 8 v :: leBytes n (v / 256)

/-- How many bytes the control fields take (R72). -/
def headerBytes (b : Config.Build) : Nat := (3 + b.rateW + b.rateW + b.lenW + 7) / 8

/-- The request whose control fields are the number `h` and whose input frame is `f`. -/
def requestOfHeader (b : Config.Build) (h : Nat) (f : Frame) : Request :=
  { op := BitVec.ofNat 3 h
    inRate := h / 2 ^ 3 % 2 ^ b.rateW
    outRate := h / 2 ^ 3 / 2 ^ b.rateW % 2 ^ b.rateW
    inLen := h / 2 ^ 3 / 2 ^ b.rateW / 2 ^ b.rateW % 2 ^ b.lenW
    frame := f }

/-- What stands above the control fields in the number `h`: 0 in a request. -/
def headerPadding (b : Config.Build) (h : Nat) : Nat :=
  h / 2 ^ 3 / 2 ^ b.rateW / 2 ^ b.rateW / 2 ^ b.lenW

/-- The request that bytes hold, or why they hold none. -/
def requestOfBytes (b : Config.Build) (bs : List Byte) : Except DecodeError Request :=
  if bs.length < headerBytes b then .error .shortHeader
  else
    let h := leNat (bs.take (headerBytes b))
    if headerPadding b h = 0 then .ok (requestOfHeader b h (bs.drop (headerBytes b))) else .error .paddingNotZero

/-- The instruction that bytes hold: total, and every rejection has a name. -/
def decodeBytes (b : Config.Build) (bs : List Byte) : Except DecodeError Instr :=
  match requestOfBytes b bs with
  | .ok rq => decodeRequest b rq
  | .error e => .error e

/-- The operation number of an instruction (R70, R78). -/
def Instr.opBits : Instr → BitVec 3
  | .decode _ => 0b000
  | .encode _ => 0b001
  | .resample _ => 0b010
  | .t2e _ => 0b011
  | .e2t _ => 0b100
  | .reserved5 _ => 0b101
  | .reserved6 _ => 0b110
  | .reserved7 _ => 0b111

/-- The request that carries an instruction (R68, R70). -/
def encodeRequest (i : Instr) : Request :=
  { toOperands := i.operands, op := i.opBits }

/-- The control fields of a request as one number (the layout above). -/
def headerOf (b : Config.Build) (rq : Request) : Nat :=
  rq.op.toNat + 2 ^ 3 * (rq.inRate + 2 ^ b.rateW * (rq.outRate + 2 ^ b.rateW * rq.inLen))

/-- The bytes of a request. -/
def bytesOfRequest (b : Config.Build) (rq : Request) : List Byte :=
  leBytes (headerBytes b) (headerOf b rq) ++ rq.frame

/-- The encoder: the bytes of an instruction. -/
def encode (b : Config.Build) (i : Instr) : List Byte :=
  bytesOfRequest b (encodeRequest i)

/-- The bytes of the instruction whose low `nbits` bits are those of `w`, every bit above them 0: as many as the word
has, and at least its control fields and the `in_len` bytes of its frame. -/
def tableWordBytes (b : Config.Build) (nbits w : Nat) : List Byte :=
  let v := w % 2 ^ nbits
  leBytes (max ((nbits + 7) / 8) (headerBytes b + (requestOfHeader b v []).inLen)) v

/-- The request that the low `nbits` bits of `w` spell, every bit above them 0. -/
def tableWordRequest (b : Config.Build) (nbits w : Nat) : Option Request :=
  match requestOfBytes b (tableWordBytes b nbits w) with
  | .ok rq => some rq
  | .error _ => none

/-- The instruction the decoder of a build reads from the low `nbits` bits of `w`, every bit above them 0. -/
def decodeWord (b : Config.Build) (nbits w : Nat) : Option Instr :=
  match decodeBytes b (tableWordBytes b nbits w) with
  | .ok i => some i
  | .error _ => none

/-- The same at the default parameters, for which opcode_table.json is written (its bits are numbered as here: `op`
is bits 2 to 0). -/
def decodeTableWord (nbits w : Nat) : Option Instr := decodeWord Machine.defaultBuild nbits w

end Sys2Proof
end

