-- ==== Sys2Proof/Machine/State.lean ====
section
/-! DEFINITION. The state of one MXC core as plain data, and why a step can stop. The spec gives the machine two
pieces of state, PHASE (R28) and REQ (R29), and no registers, no program counter, no flags and no memory (R20 to
R26, R49). The other three fields are the model's own and hold what the step relation of R34 takes from and gives
to the outside: the parameters, what the host does next, and what an observer has seen. -/

namespace Sys2Proof.Machine

/-- `PHASE` (R28). -/
inductive Phase where
  | idle
  | busy
deriving DecidableEq, Repr

/-- What the host does next (R32, R34, R198). DESIGN CHOICE, log entry 2. -/
inductive HostEvent where
  /-- The host presents a request. It stays presented until the core accepts it (D20, log entry 12). -/
  | present (rq : Request)
  /-- The reset event (R200). -/
  | reset
  /-- The host does nothing for one step. -/
  | pass
deriving DecidableEq, Repr

/-- One entry of the observable record of a run (R35). -/
inductive Obs where
  /-- A request and the response the core emitted for it. -/
  | answered (rq : Request) (rs : Response)
  /-- A reset. -/
  | reset
deriving DecidableEq, Repr

structure State where
  /-- `PHASE` (R28). -/
  phase  : Phase
  /-- `REQ` (R29): the held request; no value while IDLE. -/
  req    : Option Request
  /-- The model's own: the parameters of R7, which no step changes (R25, log entry 4). -/
  build  : Config.Build
  /-- The model's own: the host's next moves, the next one first (R32, log entry 2). -/
  host   : List HostEvent
  /-- The model's own: the observable record so far, oldest first (R35, log entry 3). -/
  record : List Obs
deriving DecidableEq, Repr

/-- Reset values (R31, R203): IDLE, no request held. The build has the defaults of R7, the host has nothing
planned and nothing has been observed (DESIGN CHOICE, log entries 2 to 5). -/
def State.reset : State :=
  { phase := .idle, req := none, build := defaultBuild, host := [], record := [] }

/-- Why a step can fault. The hardware has no faults (R189). -/
inductive Fault where
  /-- Raised by `step` in a state that is BUSY and holds no request. Safe: R29 rules the state out, and no run
  from reset reaches it (log entry 17). -/
  | noRequestHeld
deriving DecidableEq, Repr

/-- Why a step can be refused: the outcome `Refused` of R16, which says nothing of the hardware. -/
inductive Refusal where
  /-- An instruction without a meaning; raised by an arm of `exec` alone. Safe. No arm raises it. -/
  | notModelled (mnemonic : String)
  /-- `in_len` is above MAX_IN_BYTES (R7, R80); raised on acceptance and by every operation. Safe. -/
  | inputTooLong
  /-- `out_len` would be above MAX_OUT_BYTES or above what its field holds (R7, R80); raised on acceptance and by
  DECODE, ENCODE, RESAMPLE, T2E and E2T. Safe. -/
  | outputTooLong
  /-- `in_len` is not the number of bytes of `IN`: misuse by the host, for which no transition exists (R198,
  93_implementation_defined.md U11, log entry 11); raised on acceptance and by every operation. Safe. -/
  | lengthMismatch
  /-- A field of the request does not fit its width, RATE_W or LEN_W: no request record of the build holds such a
  value (R32, R68, log entry 6); raised on acceptance and by every operation. Safe. -/
  | fieldTooWide
deriving DecidableEq, Repr

/-- The outcome of a step of this machine. -/
abbrev StepOut := Host.Outcome State Fault Refusal

end Sys2Proof.Machine
end

