-- ==== Sys2Proof/Machine/Operands.lean ====
section
/-! DEFINITION. The operand forms: reading bytes and samples of a frame, the bytes a store puts into one (R57 to
R59), the fields of a μ-law byte (R60, R61, R73, R74), the rates (R75), the sample counts (R76) and the length of
the output frame by the length rule of each operation (R40). Values are exact integers (R11 to R13). -/

namespace Sys2Proof.Machine

/-- `sext_N` (R14, R75): the signed two's complement reading of a pattern of `w` bits. -/
def sext (w v : Nat) : Int := if v < 2 ^ (w - 1) then (v : Int) else (v : Int) - 2 ^ w

/-- `MemRead(a, 1)` (R57). R41: no operation reads outside the frame. -/
def memRead1 (f : Frame) (a : Nat) : Nat := (f.getD a (Config.outsideFrame a)).toNat

/-- `MemRead(a, 2)` (R57): little-endian. -/
def memRead2 (f : Frame) (a : Nat) : Nat := memRead1 f a ||| (memRead1 f (a + 1) <<< 8)

/-- `PcmRead(k)` (R59): sample `k` of a PCM16 frame, sign extended from 16 bits (R64). -/
def pcmRead (f : Frame) (k : Nat) : Int := sext 16 (memRead2 f (2 * k))

/-- The byte `MemWrite(addr, 1, v)` stores (R58). An operation writes the offsets of `OUT` in rising order, each
once (R42), so `OUT` is the stored bytes one after another (log entry 16). -/
def store1 (v : Int) : Frame := [BitVec.ofInt 8 v]

/-- The two bytes `MemWrite(addr, 2, v)` stores (R58): the 16-bit two's complement pattern, low byte first. -/
def store2 (v : Int) : Frame := [BitVec.ofInt 8 v, BitVec.ofInt 8 (v / 256)]

/-- The bytes `PcmWrite(k, s)` stores (R59). -/
def pcmStore (s : Int) : Frame := store2 s

/-- The output frame of `for k in 0 .. n-1: PcmWrite(k, g(k))` (R15, R42). -/
def pcmFrame (n : Nat) (g : Nat → Int) : Frame := (List.range n).flatMap fun k => pcmStore (g k)

/-- The output frame of `for k in 0 .. n-1: MemWrite(k, 1, g(k))` (R15, R42). -/
def byteFrame (n : Nat) (g : Nat → Byte) : Frame := (List.range n).flatMap fun k => store1 ((g k).toNat)

/-- The folded byte of a wire byte, and the other way round (R60). -/
def fold (b : Byte) : Byte := ~~~b

/-- `S`, bit 7 of the folded byte (R61, R73). -/
def signField (u : Byte) : Bool := u.getLsbD 7

/-- `E`, bits 6 to 4 of the folded byte (R61, R73). -/
def exponentField (u : Byte) : Nat := (u.extractLsb' 4 3).toNat

/-- `M`, bits 3 to 0 of the folded byte (R61, R73). -/
def mantissaField (u : Byte) : Nat := (u.extractLsb' 0 4).toNat

/-- `(S << 7) | (E << 4) | M` (R74, R127). -/
def packFields (s : Bool) (e m : Nat) : Nat := (s.toNat <<< 7) ||| (e <<< 4) ||| m

/-- A rate field of RATE_W bits as the integer it stands for, in Hz (R75). -/
def signedRate (b : Config.Build) (r : Nat) : Int := sext b.rateW r

/-- A positive rate as a natural number. -/
def rateHz (b : Config.Build) (r : Nat) : Nat := (signedRate b r).toNat

/-- The sample count of a μ-law input frame (R76). -/
def mulawCount (q : Operands) : Nat := q.inLen

/-- The sample count of a PCM16 input frame (R76). -/
def pcmCount (q : Operands) : Nat := q.inLen / 2

/-- `outputSamples` of R141. -/
def outputSamples (n inRate outRate : Nat) : Nat := n * outRate / inRate

/-- `out_len` of an operation that ends in `Ok`, from the control fields (R102, R122, R140, R172). -/
def outLen (b : Config.Build) : Instr → Nat
  | .decode q => 2 * mulawCount q
  | .encode q => pcmCount q
  | .resample q => 2 * outputSamples (pcmCount q) (rateHz b q.inRate) (rateHz b q.outRate)
  | .t2e q => 2 * outputSamples (mulawCount q) rateTel rateEng
  | .e2t q => outputSamples (pcmCount q) rateEng rateTel
  | .reserved5 _ => 0
  | .reserved6 _ => 0
  | .reserved7 _ => 0

end Sys2Proof.Machine
end

