-- ==== Sys2Proof/Machine/Flags.lean ====
section
/-! DEFINITION. The error mask of a response (R180) and the checks of `Exec` that set it (R77). The core has no
other flag (R22). -/

namespace Sys2Proof.Machine

/-- Success (R180). -/
def noError : BitVec 3 := 0b000

/-- Bit 0 of the mask (R180, R181). -/
def errOddLength : BitVec 3 := 0b001

/-- Bit 1 of the mask (R180, R182). -/
def errBadRate : BitVec 3 := 0b010

/-- Bit 2 of the mask (R180, R183). -/
def errIllegalOp : BitVec 3 := 0b100

/-- `op >= 5` (R78, R183). -/
def illegalOp : Instr → Bool
  | .decode _ => false
  | .encode _ => false
  | .resample _ => false
  | .t2e _ => false
  | .e2t _ => false
  | .reserved5 _ => true
  | .reserved6 _ => true
  | .reserved7 _ => true

/-- An odd number of bytes where a PCM16 frame is wanted (R46, R181). -/
def oddFrame (q : Operands) : Bool := q.inLen % 2 == 1

/-- `ODD_LENGTH` applies: ENCODE, RESAMPLE and E2T take a PCM16 frame (R181). -/
def oddLength : Instr → Bool
  | .decode _ => false
  | .encode q => oddFrame q
  | .resample q => oddFrame q
  | .t2e _ => false
  | .e2t q => oddFrame q
  | .reserved5 _ => false
  | .reserved6 _ => false
  | .reserved7 _ => false

/-- `BAD_RATE` applies: only RESAMPLE reads the rates, and both must be positive (R71, R182). -/
def badRate (b : Config.Build) : Instr → Bool
  | .decode _ => false
  | .encode _ => false
  | .resample q => decide (signedRate b q.inRate ≤ 0) || decide (signedRate b q.outRate ≤ 0)
  | .t2e _ => false
  | .e2t _ => false
  | .reserved5 _ => false
  | .reserved6 _ => false
  | .reserved7 _ => false

/-- `bits` when the cause applies, no bit otherwise. -/
def setWhen (applies : Bool) (bits : BitVec 3) : BitVec 3 := if applies then bits else noError

/-- The checks of `Exec` (R77): on the control fields alone, and every bit that applies is set (R186). -/
def errMask (b : Config.Build) (i : Instr) : BitVec 3 :=
  setWhen (illegalOp i) errIllegalOp ||| setWhen (oddLength i) errOddLength ||| setWhen (badRate b i) errBadRate

end Sys2Proof.Machine
end

