-- ==== Sys2Proof/Machine/Ops.lean ====
section
/-! DEFINITION. The named operations on the state: emitting a response, ending an operation in an error, the three
kinds of step of R34, and what a model refuses (R80). -/

namespace Sys2Proof.Machine

/-- What is refused (R16): a request that is not well formed (R32, R198), an `in_len` above MAX_IN_BYTES, or an
`out_len` that no response of this build can have (R80). A request that ends in an error has no output, so only
the first two apply to it (log entry 10). -/
def barred (b : Config.Build) (i : Instr) : Option Refusal :=
  if ¬ i.operands.FieldsFit b then some .fieldTooWide
  else if i.operands.inLen ≠ i.operands.frame.length then some .lengthMismatch
  else if b.maxInBytes < i.operands.inLen then some .inputTooLong
  else if errMask b i = noError ∧ (b.maxOutBytes < outLen b i ∨ 2 ^ b.lenW ≤ outLen b i) then some .outputTooLong
  else none

/-- The response of an operation that ends in `Ok` (R16, R77). -/
def okResponse (out : Frame) : Response :=
  { err := noError, outLen := out.length, out := out }

/-- The response of an operation that ends in `Error` (R14, R187): no output. -/
def errorResponse (bits : BitVec 3) : Response :=
  { err := bits, outLen := 0, out := [] }

/-- The last part of COMPLETE (R34): the response goes to the host, nothing is held, the core is IDLE. -/
def emit (rq : Request) (rs : Response) (s : State) : State :=
  { s with phase := .idle, req := none, record := s.record ++ [.answered rq rs] }

/-- Taking an error (R187): a response with the mask and no output; nothing is saved, control goes nowhere, and
the core goes to IDLE as after any response. There is no return from it (R188). -/
def raiseError (rq : Request) (bits : BitVec 3) (s : State) : State :=
  emit rq (errorResponse bits) s

/-- `Exec` on one instruction (R77), with the end of COMPLETE (R34): the checks come first, and the output frame
is built only when none applies. -/
def complete (i : Instr) (out : Unit → Frame) (s : State) : StepOut :=
  match barred s.build i with
  | some r => .refused r
  | none =>
    if errMask s.build i = noError then .next (emit (encodeRequest i) (okResponse (out ())) s)
    else .next (raiseError (encodeRequest i) (errMask s.build i) s)

/-- The refusal of a request that is no instruction. -/
def refusalOf : DecodeError → Refusal
  | .fieldTooWide => .fieldTooWide
  | .lengthMismatch => .lengthMismatch
  | .shortHeader => .lengthMismatch
  | .paddingNotZero => .lengthMismatch

/-- ACCEPT (R34): the whole request is copied (R29). A request the model refuses is not accepted (log entry 10). -/
def accept (rq : Request) (s : State) : StepOut :=
  match decodeRequest s.build rq with
  | .error e => .refused (refusalOf e)
  | .ok i =>
    match barred s.build i with
    | some r => .refused r
    | none => .next { s with phase := .busy, req := some rq }

/-- The host's next move is a reset. -/
def resetPending (s : State) : Bool :=
  match s.host with
  | .reset :: _ => true
  | _ => false

/-- The host's next move has been made. -/
def dropEvent (s : State) : State := { s with host := s.host.tail }

/-- RESET (R34, R200): IDLE, nothing held, nothing emitted. -/
def performReset (s : State) : State :=
  { dropEvent s with phase := .idle, req := none, record := s.record ++ [.reset] }

/-- A host that does nothing lets one step pass; any other move of the host stays to be made (log entry 12). -/
def takePass (s : State) : State :=
  match s.host with
  | .pass :: _ => dropEvent s
  | _ => s

/-- A step of an IDLE core (R34, R209): it accepts the request the host presents, and otherwise waits (log entry
13). -/
def idleStep (s : State) : StepOut :=
  match s.host with
  | [] => .next s
  | .pass :: _ => .next (dropEvent s)
  | .reset :: _ => .next (performReset s)
  | .present rq :: _ => accept rq (dropEvent s)

end Sys2Proof.Machine
end

