-- ==== Sys2Proof/Machine/Mulaw.lean ====
section
/-! DEFINITION. DECODE (R100, 41_mulaw_decode.md) and ENCODE (R120, 42_mulaw_encode.md). -/

namespace Sys2Proof.Machine

/-- `clamp` of R12. -/
def clamp (v lo hi : Int) : Int := max lo (min hi v)

/-- The magnitude of R101: `(M << (E + 3)) + (BIAS << E)`, with an extra `BIAS` when `E` is 0. -/
def decodeMagnitude (e m : Nat) : Nat :=
  let mag := (m <<< (e + 3)) + (bias <<< e)
  if e = 0 then mag + bias else mag

/-- `DecodeSample` (R101). -/
def decodeSample (b : Byte) : Int :=
  let u := fold b
  let mag : Int := decodeMagnitude (exponentField u) (mantissaField u)
  clamp (if signField u then -mag else mag) pcmMin pcmMax

/-- `Decode` (R100). -/
def decodeFrame (f : Frame) : Frame :=
  pcmFrame f.length fun k => decodeSample (BitVec.ofNat 8 (memRead1 f k))

/-- `Fits(b, e)` (R125), in both readings. -/
def fits (rule : Config.ExpRule) (b e : Nat) : Bool :=
  match rule with
  | .bitspan => decide (b < 0x100 <<< e)
  | .numericLe => decide (b ≤ 0xFF <<< e)

/-- `min(mag + BIAS, MULAW_MAX)` (R121, R124). -/
def biasedMagnitude (mag : Nat) : Nat := min (mag + bias) mulawMax

/-- The least `e` in 0 to 7 that fits (R121, R125). -/
def exponentOf (rule : Config.ExpRule) (b : Nat) : Nat :=
  ((List.range 8).find? (fits rule b)).getD (Config.unfitExponent b)

/-- `(b >> (E + 3)) & 0xF` (R126). -/
def mantissaOf (b e : Nat) : Nat := (b >>> (e + 3)) &&& 0xF

/-- `EncodeSample` (R121). -/
def encodeSample (rule : Config.ExpRule) (x : Int) : Byte :=
  let b := biasedMagnitude x.natAbs
  let e := exponentOf rule b
  fold (BitVec.ofNat 8 (packFields (decide (x < 0)) e (mantissaOf b e)))

/-- `Encode` (R120). -/
def encodeFrame (rule : Config.ExpRule) (f : Frame) : Frame :=
  byteFrame (f.length / 2) fun k => encodeSample rule (pcmRead f k)

/-- DECODE (R100). No error can arise (R107). -/
def execDecode (q : Operands) (s : State) : StepOut :=
  complete (.decode q) (fun _ => decodeFrame q.frame) s

/-- ENCODE (R120). An odd `in_len` ends in ODD_LENGTH (R129). -/
def execEncode (q : Operands) (s : State) : StepOut :=
  complete (.encode q) (fun _ => encodeFrame s.build.expRule q.frame) s

end Sys2Proof.Machine
end

