-- ==== Sys2Proof/Machine/Resample.lean ====
section
/-! DEFINITION. RESAMPLE (R140, 43_resample.md): linear interpolation in exact rational arithmetic (R142, R149).
A rational is its integer numerator over the fixed denominator `out_rate`. -/

namespace Sys2Proof.Machine

/-- `floor(num / d + 1/2)` (R147): the nearest integer, a tie going up. -/
def roundUp (num : Int) (d : Nat) : Int := (2 * num + d) / (2 * d)

/-- `num / d` is exactly half way between two integers (R147). -/
def isTie (num : Int) (d : Nat) : Bool := decide ((2 * num) % (2 * d) = d)

/-- `Round(num, d)` (R147), under each tie rule. -/
def roundQuotient (tie : Config.RoundTie) (num : Int) (d : Nat) : Int :=
  match tie with
  | .halfUp => roundUp num d
  | .halfAway => num.sign * roundUp num.natAbs d
  | .halfEven => if isTie num d ∧ roundUp num d % 2 = 1 then roundUp num d - 1 else roundUp num d

/-- `floorIdx` (R142, R143). -/
def floorIdx (i inRate outRate : Nat) : Nat := i * inRate / outRate

/-- `ceilIdx` (R144): the next sample, held at the last one. -/
def ceilIdx (n f : Nat) : Nat := min (f + 1) (n - 1)

/-- The numerator of `frac` over `out_rate` (R145). -/
def fracNum (i inRate outRate : Nat) : Nat := i * inRate % outRate

/-- The numerator of the interpolated value over `out_rate` (R146). -/
def interpolate (a b : Int) (r outRate : Nat) : Int := a * outRate + (b - a) * r

/-- Output sample `i` of the linear kernel (R140, R142 to R147). -/
def linearSample (tie : Config.RoundTie) (f : Frame) (inRate outRate i : Nat) : Int :=
  let lo := floorIdx i inRate outRate
  let hi := ceilIdx (f.length / 2) lo
  roundQuotient tie (interpolate (pcmRead f lo) (pcmRead f hi) (fracNum i inRate outRate) outRate) outRate

/-- Output sample `i` by the kernel of the build (R9, R164). -/
def kernelSample (b : Config.Build) (f : Frame) (inRate outRate i : Nat) : Int :=
  match b.kernel with
  | .linear => linearSample b.roundTie f inRate outRate i

/-- `Resample` (R140). -/
def resampleFrame (b : Config.Build) (f : Frame) (inRate outRate : Nat) : Frame :=
  pcmFrame (outputSamples (f.length / 2) inRate outRate) fun i => kernelSample b f inRate outRate i

/-- RESAMPLE (R140). An odd `in_len` ends in ODD_LENGTH (R156), a rate that is not positive in BAD_RATE (R157). -/
def execResample (q : Operands) (s : State) : StepOut :=
  complete (.resample q) (fun _ => resampleFrame s.build q.frame (rateHz s.build q.inRate) (rateHz s.build q.outRate)) s

end Sys2Proof.Machine
end

