-- ==== Sys2Proof/Machine/Pipeline.lean ====
section
/-! DEFINITION. The two pipelines (44_pipeline.md): the second stage reads the whole intermediate frame of the first
(R176), which nobody else sees (R177). The rates are the wired constants of R8 (R66). -/

namespace Sys2Proof.Machine

/-- `T2E(IN)` (R170): decode, then 8000 to 24000. -/
def t2eFrame (b : Config.Build) (f : Frame) : Frame :=
  resampleFrame b (decodeFrame f) rateTel rateEng

/-- `E2T(IN)` (R171): 24000 to 8000, then encode. -/
def e2tFrame (b : Config.Build) (f : Frame) : Frame :=
  encodeFrame b.expRule (resampleFrame b f rateEng rateTel)

/-- T2E (R170). No error can arise. -/
def execT2e (q : Operands) (s : State) : StepOut :=
  complete (.t2e q) (fun _ => t2eFrame s.build q.frame) s

/-- E2T (R171). An odd `in_len` ends in ODD_LENGTH and no stage runs (R173). -/
def execE2t (q : Operands) (s : State) : StepOut :=
  complete (.e2t q) (fun _ => e2tFrame s.build q.frame) s

end Sys2Proof.Machine
end

