-- ==== Sys2Proof/Machine/Reserved.lean ====
section
/-! DEFINITION. The reserved operation numbers (R78, R183): the checks answer ILLEGAL_OP, so no frame is built. -/

namespace Sys2Proof.Machine

/-- RESERVED_5 (R78). -/
def execReserved5 (q : Operands) (s : State) : StepOut :=
  complete (.reserved5 q) (fun _ => []) s

/-- RESERVED_6 (R78). -/
def execReserved6 (q : Operands) (s : State) : StepOut :=
  complete (.reserved6 q) (fun _ => []) s

/-- RESERVED_7 (R78). -/
def execReserved7 (q : Operands) (s : State) : StepOut :=
  complete (.reserved7 q) (fun _ => []) s

end Sys2Proof.Machine
end

