-- ==== Sys2Proof/Machine/Dispatch.lean ====
section
/-! DEFINITION. The operation map of `Exec` (R70, R77): one arm per operation, one call per arm. -/

namespace Sys2Proof.Machine

def exec (i : Instr) (s : State) : Host.Outcome State Fault Refusal :=
  match i with
  | .decode q => Sys2Proof.Machine.execDecode q s
  | .encode q => Sys2Proof.Machine.execEncode q s
  | .resample q => Sys2Proof.Machine.execResample q s
  | .t2e q => Sys2Proof.Machine.execT2e q s
  | .e2t q => Sys2Proof.Machine.execE2t q s
  | .reserved5 q => Sys2Proof.Machine.execReserved5 q s
  | .reserved6 q => Sys2Proof.Machine.execReserved6 q s
  | .reserved7 q => Sys2Proof.Machine.execReserved7 q s

end Sys2Proof.Machine
end

