-- ==== Sys2Proof/Machine/Step.lean ====
section
/-! DEFINITION. One step of the core (R34): RESET when the host resets, COMPLETE when a request is held, and
otherwise ACCEPT or waiting. -/

namespace Sys2Proof.Machine

/-- The step relation of R34, the choice among its steps taken from the host's plan (log entry 2). A reset is
possible at any time (R200); a core that holds a request completes it (R209). -/
def step (s : State) : Host.Outcome State Fault Refusal :=
  if resetPending s then .next (performReset s)
  else
    match s.phase, s.req with
    | .busy, some rq =>
      match decodeRequest s.build rq with
      | .ok i => exec i (takePass s)
      | .error e => .refused (refusalOf e)
    | .busy, none => .fault .noRequestHeld
    | .idle, _ => idleStep s

/-- The state in which the next step runs the instruction whose low `nbits` bits are `w`: there is no program
counter (R21), so the request is put where COMPLETE takes it from, and the host lets one step pass (log entry
14). -/
def State.withFetchWord (s : State) (nbits w : Nat) : State :=
  { s with phase := .busy, req := tableWordRequest s.build nbits w, host := .pass :: s.host }

end Sys2Proof.Machine
end

