-- ==== Sys2Proof/Safety.lean ====
section
/-! DEFINITION. What counts as a good state and a good answer, in the terms the statements use. -/

namespace Sys2Proof.Machine

/-- The spec's own relation between PHASE and REQ (R28, R29): nothing is held while IDLE, and while BUSY a request
is held that the model does not refuse. -/
def handshakeOk (s : State) : Bool :=
  match s.phase, s.req with
  | .idle, none => true
  | .idle, some _ => false
  | .busy, none => false
  | .busy, some rq =>
    match decodeRequest s.build rq with
    | .ok i => (barred s.build i).isNone
    | .error _ => false

/-- A response that fits its request (R24, R42, R69, R77): the error mask the checks give, as many bytes as
`out_len` says, an `out_len` that fits its field, and the length rule of the operation, or no output after an
error. -/
def answerOk (b : Config.Build) (rq : Request) (rs : Response) : Bool :=
  match decodeRequest b rq with
  | .ok i =>
    rs.err == errMask b i && rs.outLen == rs.out.length && decide (rs.outLen < 2 ^ b.lenW) &&
      rs.outLen == (if errMask b i = noError then outLen b i else 0)
  | .error _ => false

/-- An entry of the record that an observer of a core of this build may see (R35). -/
def obsOk (b : Config.Build) : Obs → Bool
  | .answered rq rs => answerOk b rq rs
  | .reset => true

/-- The invariant of the machine: the handshake (R28, R29), and every response so far fits its request. -/
def State.Inv (s : State) : Prop := handshakeOk s = true ∧ s.record.all (obsOk s.build) = true

/-- A request the implementation accepts (R7, R198): well formed, and within MAX_IN_BYTES. -/
def acceptable (b : Config.Build) (q : Operands) : Prop :=
  q.WF b ∧ q.inLen ≤ b.maxInBytes

/-- An output length this build can give (R80). -/
def producible (b : Config.Build) (n : Nat) : Prop :=
  n ≤ b.maxOutBytes ∧ n < 2 ^ b.lenW

/-- `exec` completes the instruction with this response: the state after it is the state before, but IDLE, with
nothing held, and with one answer more in the record (R34). -/
def answersWith (i : Instr) (s : State) (rs : Response) : Prop :=
  exec i s = .next { s with phase := .idle, req := none, record := s.record ++ [.answered (encodeRequest i) rs] }

/-- `exec` completes the instruction with `Ok(out)` (R16): no error, and `out_len` is the length of `out`. -/
def answersOk (i : Instr) (s : State) (out : Frame) : Prop :=
  answersWith i s { err := 0b000, outLen := out.length, out := out }

/-- `exec` completes the instruction with `Error(bits)` (R16, R187): no output. -/
def answersError (i : Instr) (s : State) (bits : BitVec 3) : Prop :=
  answersWith i s { err := bits, outLen := 0, out := [] }

/-- Sample `k` of a PCM16 frame (R15). -/
abbrev sample (f : Frame) (k : Nat) : Int := pcmRead f k

/-- The response an outcome's newest record entry holds, when it is one. -/
def lastAnswer : StepOut → Option Response
  | .next t =>
    match t.record.getLast? with
    | some (.answered _ rs) => some rs
    | _ => none
  | _ => none

end Sys2Proof.Machine
end

