-- ==== Sys2Proof/Certificates/Slice0/Obligations.lean ====
section
/-! DEFINITION. The statements for the provers. Each docstring names the rules of spec/ it formalises. Where a
statement rests on a choice of the model, its docstring names the log entry. -/

open Sys2Proof Sys2Proof.Machine

/-! ## Reset, the handshake and the step relation -/

/-- R31, R203: after reset the core is IDLE and holds no request. -/
def Obligations.ResetStateIsIdleAndHoldsNothing : Prop :=
  State.reset.phase = .idle ∧ State.reset.req = none

/-- From R34, R35, R200: a reset makes the core IDLE and drops what it holds, whatever it was doing, and no response
is emitted. That the record notes the reset, and that the reset is the host's move and is used up, is the model's
choice: log entries 2 and 3. -/
def Obligations.ResetDropsTheRequestAndEmitsNothing : Prop :=
  ∀ (s : State) (rest : List HostEvent), s.host = .reset :: rest →
    step s = .next { s with phase := .idle, req := none, host := rest, record := s.record ++ [.reset] }

/-- R29, R34: an IDLE core accepts the presented request whole and becomes BUSY. The bounds are those of R80 (that
they are checked on acceptance is the model's, log entry 10). -/
def Obligations.IdleCoreAcceptsAPresentedRequest : Prop :=
  ∀ (s : State) (rq : Request) (i : Instr) (rest : List HostEvent),
    s.phase = .idle → s.host = .present rq :: rest → decodeRequest s.build rq = .ok i →
    acceptable s.build rq.toOperands →
    (errMask s.build i = 0b000 → producible s.build (outLen s.build i)) →
    step s = .next { s with phase := .busy, req := some rq, host := rest }

/-- R209: an IDLE core to which nothing is presented waits (that it waits by steps that change nothing is the
model's, log entry 13). -/
def Obligations.IdleCoreWaitsForTheHost : Prop :=
  ∀ s : State, s.phase = .idle →
    (s.host = [] → step s = .next s) ∧
    (∀ rest, s.host = .pass :: rest → step s = .next { s with host := rest })

/-- R34, R77: a BUSY core that is not reset runs the instruction its held request stands for; a pass of the host is
used up by the step, any other move stays (log entries 2 and 12). -/
def Obligations.StepRunsTheHeldRequest : Prop :=
  ∀ (s : State) (rq : Request) (i : Instr), s.phase = .busy → s.req = some rq → decodeRequest s.build rq = .ok i →
    (∀ rest, s.host = .pass :: rest → step s = exec i { s with host := rest }) ∧
    ((∀ rest, s.host ≠ .reset :: rest) → (∀ rest, s.host ≠ .pass :: rest) → step s = exec i s)

/-- A word that a build decodes is the instruction that runs next once it stands where the core takes its request
from; at the default parameters that is the word the table gives a row (log entries 1 and 14: the byte layout and
the placing are the model's). -/
def Obligations.StepRunsTheFetchedWord : Prop :=
  ∀ (s : State) (nbits w : Nat) (i : Instr),
    (decodeWord s.build nbits w = some i →
      step (s.withFetchWord nbits w) = exec i { s.withFetchWord nbits w with host := s.host }) ∧
    (s.build = defaultBuild → decodeTableWord nbits w = some i →
      step (s.withFetchWord nbits w) = exec i { s.withFetchWord nbits w with host := s.host })

/-- R28, R34, D20: a request presented while the core is BUSY is not taken: it is still presented after the step
that ends the held one (log entry 12). -/
def Obligations.BusyCoreLeavesAPresentedRequest : Prop :=
  ∀ (s t : State) (rq : Request) (rest : List HostEvent), s.phase = .busy → s.host = .present rq :: rest →
    step s = .next t → t.host = .present rq :: rest ∧ t.phase = .idle ∧ t.req = none

/-- R28, R29, R24, R42, R186: every step keeps the handshake between PHASE and REQ, and every response in the
record fits its request: its mask, its length by the length rule of the operation, as many bytes as it says, and a
length that fits its field (R32). -/
def Obligations.EveryStepKeepsTheInvariant : Prop :=
  ∀ s t : State, s.Inv → step s = .next t → t.Inv

/-- The invariant holds after reset (R31). -/
def Obligations.InvariantHoldsAtReset : Prop := State.reset.Inv

/-- R189, R209: in BUSY the step COMPLETE is always possible, and it answers the held request with a response that
fits it, unless the host resets. -/
def Obligations.HeldRequestIsAlwaysAnswered : Prop :=
  ∀ s : State, s.Inv → s.phase = .busy → (∀ rest, s.host ≠ .reset :: rest) →
    ∃ (rq : Request) (rs : Response) (t : State), s.req = some rq ∧ step s = .next t ∧ answerOk s.build rq rs = true ∧
      t.phase = .idle ∧ t.req = none ∧ t.build = s.build ∧ t.record = s.record ++ [.answered rq rs]

/-- R189: the core cannot fault (the model's one fault is in states the invariant rules out, log entry 17). -/
def Obligations.GoodStateNeverFaults : Prop :=
  ∀ (s : State) (f : Fault), s.Inv → step s ≠ .fault f

/-- R34: ACCEPT and COMPLETE together answer one request and leave nothing behind but the answer. -/
def Obligations.TransactionIsAcceptThenComplete : Prop :=
  ∀ (s : State) (rq : Request) (i : Instr) (rest : List HostEvent),
    s.phase = .idle → s.req = none → s.host = .present rq :: rest → (∀ r, rest ≠ .reset :: r) →
    (∀ r, rest ≠ .pass :: r) → decodeRequest s.build rq = .ok i → acceptable s.build rq.toOperands →
    (errMask s.build i = 0b000 → producible s.build (outLen s.build i)) →
    ∃ (t : State) (rs : Response), step s = .next t ∧ t.phase = .busy ∧ t.req = some rq ∧
      answerOk s.build rq rs = true ∧
      step t = .next { s with host := rest, record := s.record ++ [.answered rq rs] }

/-- R25: no step changes the parameters. -/
def Obligations.NoStepChangesTheBuild : Prop :=
  ∀ s t : State, step s = .next t → t.build = s.build

/-- R34, R35: a step adds at most one entry to the observable record and takes none away. -/
def Obligations.RecordOnlyGrows : Prop :=
  ∀ s t : State, step s = .next t → t.record = s.record ∨ ∃ o, t.record = s.record ++ [o]

/-! ## The frame of every operation -/

/-- R6, R20, R34: an operation that completes leaves the parameters and the host's plan alone, adds its own answer
to the record, and leaves the core IDLE with nothing held. -/
def Obligations.OperationsChangeNothingButTheAnswer : Prop :=
  ∀ (i : Instr) (s t : State), exec i s = .next t →
    t.phase = .idle ∧ t.req = none ∧ t.build = s.build ∧ t.host = s.host ∧
    ∃ rs, t.record = s.record ++ [.answered (encodeRequest i) rs]

/-- R6, D34: the response is a function of the request and the parameters. -/
def Obligations.AnswerDependsOnTheRequestAlone : Prop :=
  ∀ (i : Instr) (s u : State), s.build = u.build →
    lastAnswer (exec i s) = lastAnswer (exec i u) ∧ (∀ r, exec i s = .refused r ↔ exec i u = .refused r)

/-- R22, R188: the next request is executed as if the one before, erroneous or not, had never been sent. -/
def Obligations.NothingLatchesBetweenOperations : Prop :=
  ∀ (i j : Instr) (s t : State), exec i s = .next t → lastAnswer (exec j t) = lastAnswer (exec j s)

/-- R71: the operations other than RESAMPLE ignore the rate fields, at every value a field of RATE_W bits has. -/
def Obligations.RateFieldsAreIgnored : Prop :=
  ∀ (q : Operands) (a b : Nat) (s : State), q.inRate < 2 ^ s.build.rateW → q.outRate < 2 ^ s.build.rateW →
    a < 2 ^ s.build.rateW → b < 2 ^ s.build.rateW →
    let p : Operands := { q with inRate := a, outRate := b }
    lastAnswer (exec (.decode p) s) = lastAnswer (exec (.decode q) s) ∧
    lastAnswer (exec (.encode p) s) = lastAnswer (exec (.encode q) s) ∧
    lastAnswer (exec (.t2e p) s) = lastAnswer (exec (.t2e q) s) ∧
    lastAnswer (exec (.e2t p) s) = lastAnswer (exec (.e2t q) s) ∧
    lastAnswer (exec (.reserved5 p) s) = lastAnswer (exec (.reserved5 q) s) ∧
    lastAnswer (exec (.reserved6 p) s) = lastAnswer (exec (.reserved6 q) s) ∧
    lastAnswer (exec (.reserved7 p) s) = lastAnswer (exec (.reserved7 q) s)

/-! ## Errors and refusals -/

/-- R129, R156, R173, R181: an odd `in_len` ends ENCODE, E2T and RESAMPLE in ODD_LENGTH with no output, whatever the
frame holds; RESAMPLE sets BAD_RATE as well when a rate is not positive (R186). -/
def Obligations.OddLengthEndsInAnError : Prop :=
  ∀ (q : Operands) (s : State), acceptable s.build q → q.inLen % 2 = 1 →
    answersError (.encode q) s 0b001 ∧ answersError (.e2t q) s 0b001 ∧
    answersError (.resample q) s
      (if signedRate s.build q.inRate ≤ 0 ∨ signedRate s.build q.outRate ≤ 0 then 0b011 else 0b001)

/-- R157, R182, R186: a rate that is not positive ends RESAMPLE in BAD_RATE with no output, also for an empty frame,
and ODD_LENGTH is set as well when `in_len` is odd. (The rate is read in the build's RATE_W; at the default width that is the rule's `sext_32`.) -/
def Obligations.BadRateEndsInAnError : Prop :=
  ∀ (q : Operands) (s : State), acceptable s.build q →
    signedRate s.build q.inRate ≤ 0 ∨ signedRate s.build q.outRate ≤ 0 →
    answersError (.resample q) s (if q.inLen % 2 = 1 then 0b011 else 0b010)

/-- R78, R183: a reserved operation number ends in ILLEGAL_OP alone, with no output and no other effect. -/
def Obligations.ReservedNumbersEndInIllegalOp : Prop :=
  ∀ (q : Operands) (s : State), acceptable s.build q →
    answersError (.reserved5 q) s 0b100 ∧ answersError (.reserved6 q) s 0b100 ∧ answersError (.reserved7 q) s 0b100

/-- R186: the error masks that occur are 0 to 4, and ODD_LENGTH and BAD_RATE come together only in RESAMPLE, in every
build; each of the five masks does occur, in every build whose length fields can hold the length 1. -/
def Obligations.ReachableErrorMasks : Prop :=
  ∀ b : Config.Build,
    (∀ i : Instr, (errMask b i).toNat ≤ 4 ∧ (errMask b i = 0b011 → ∃ q, i = .resample q)) ∧
    (1 ≤ b.lenW → ∀ m : BitVec 3, m.toNat ≤ 4 → ∃ i : Instr, i.WF b ∧ errMask b i = m)

/-- R16, R80, R189: an operation is refused exactly when the request is malformed, its `in_len` is above
MAX_IN_BYTES, or its output is one that no response can hold; otherwise it completes. The model's choice: a request
is malformed, and then refused also within the bounds, when a field does not fit its width (log entry 6) or when
`in_len` is not the length of `IN` (log entry 11); and a request above MAX_IN_BYTES is refused before its error is
looked at (log entry 10). -/
def Obligations.OperationIsRefusedExactlyWhenMalformedOrBeyondTheBounds : Prop :=
  ∀ (i : Instr) (s : State),
    let q := i.operands
    let malformed := ¬ q.FieldsFit s.build ∨ q.inLen ≠ q.frame.length
    let beyond := s.build.maxInBytes < q.inLen ∨
      (errMask s.build i = 0b000 ∧
        (s.build.maxOutBytes < outLen s.build i ∨ 2 ^ s.build.lenW ≤ outLen s.build i))
    ((∃ r, exec i s = .refused r) ↔ malformed ∨ beyond) ∧
    ((∃ t, exec i s = .next t) ↔ ¬ (malformed ∨ beyond)) ∧
    ∀ f, exec i s ≠ .fault f

/-! ## Encoding of requests -/

/-- In every build, every well-formed instruction of every operation is what its own bytes decode to, with every
field at every value (R7, R68, R70; the byte layout is the model's, log entry 1). -/
def Obligations.DecodeOfEncodeIsTheInstruction : Prop :=
  ∀ (b : Config.Build) (i : Instr), i.WF b → decodeBytes b (encode b i) = .ok i

/-- In every build, bytes that decode are the encoding of what they decode to: no two byte sequences stand for one
request (log entry 1). -/
def Obligations.EncodeOfDecodeIsTheBytes : Prop :=
  ∀ (b : Config.Build) (bs : List Byte) (i : Instr), decodeBytes b bs = .ok i → encode b i = bs ∧ i.WF b

/-- R70, R78: the eight operation numbers, written out; and one request with every field set, written out as bytes
(R68; layout: log entry 1). -/
def Obligations.SampleWordsDecodeAsTheTableSays : Prop :=
  decodeTableWord 8 0b000 = some (.decode ⟨0, 0, 0, []⟩) ∧
  decodeTableWord 8 0b001 = some (.encode ⟨0, 0, 0, []⟩) ∧
  decodeTableWord 8 0b010 = some (.resample ⟨0, 0, 0, []⟩) ∧
  decodeTableWord 8 0b011 = some (.t2e ⟨0, 0, 0, []⟩) ∧
  decodeTableWord 8 0b100 = some (.e2t ⟨0, 0, 0, []⟩) ∧
  decodeTableWord 8 0b101 = some (.reserved5 ⟨0, 0, 0, []⟩) ∧
  decodeTableWord 8 0b110 = some (.reserved6 ⟨0, 0, 0, []⟩) ∧
  decodeTableWord 8 0b111 = some (.reserved7 ⟨0, 0, 0, []⟩) ∧
  decodeBytes defaultBuild
    [0x02, 0xFA, 0x00, 0x00, 0x00, 0xEE, 0x02, 0x00, 0x10, 0x00, 0x00, 0x00, 0x00, 0x34, 0x12] =
    .ok (.resample ⟨8000, 24000, 2, [0x34, 0x12]⟩)

/-- R59: a sample written at position `k` of a frame reads back as itself, little-endian, from the two bytes the
rule gives; with the rule's examples. -/
def Obligations.StoredSampleReadsBack : Prop :=
  (∀ (f g : Frame) (k : Nat) (s : Int), f.length = 2 * k → -32768 ≤ s → s ≤ 32767 →
    pcmRead (f ++ pcmStore s ++ g) k = s) ∧
  pcmRead [0xFF, 0x7F] 0 = 32767 ∧ pcmRead [0x00, 0x80] 0 = -32768 ∧ pcmRead [0xFF, 0xFF] 0 = -1 ∧
  pcmStore (-264) = [0xF8, 0xFE]

/-! ## DECODE -/

/-- R100, R102: DECODE answers with the samples of its bytes, two bytes each. -/
def Obligations.DecodeAnswersWithTheSamples : Prop :=
  ∀ (q : Operands) (s : State), acceptable s.build q → producible s.build (2 * q.inLen) →
    ∃ out, answersOk (.decode q) s out ∧ out.length = 2 * q.inLen ∧
      ∀ k b, q.frame[k]? = some b → sample out k = decodeSample b

/-- R101, R103: the decoder's value by the fields of the byte, in closed form. -/
def Obligations.DecodedSampleByFields : Prop :=
  ∀ (neg : Bool) (e m : Nat), e < 8 → m < 16 →
    decodeSample (fold (BitVec.ofNat 8 (packFields neg e m))) =
      (if neg then (-1 : Int) else 1) * (if e = 0 then 8 * m + 264 else (8 * m + 132) * 2 ^ e)

/-- R110: the table of magnitudes, row by row. -/
def Obligations.DecoderMagnitudeTable : Prop :=
  let row (e : Nat) : List Nat := (List.range 16).map (decodeMagnitude e)
  row 0 = [264, 272, 280, 288, 296, 304, 312, 320, 328, 336, 344, 352, 360, 368, 376, 384] ∧
  row 1 = [264, 280, 296, 312, 328, 344, 360, 376, 392, 408, 424, 440, 456, 472, 488, 504] ∧
  row 2 = [528, 560, 592, 624, 656, 688, 720, 752, 784, 816, 848, 880, 912, 944, 976, 1008] ∧
  row 3 = [1056, 1120, 1184, 1248, 1312, 1376, 1440, 1504, 1568, 1632, 1696, 1760, 1824, 1888, 1952, 2016] ∧
  row 4 = [2112, 2240, 2368, 2496, 2624, 2752, 2880, 3008, 3136, 3264, 3392, 3520, 3648, 3776, 3904, 4032] ∧
  row 5 = [4224, 4480, 4736, 4992, 5248, 5504, 5760, 6016, 6272, 6528, 6784, 7040, 7296, 7552, 7808, 8064] ∧
  row 6 = [8448, 8960, 9472, 9984, 10496, 11008, 11520, 12032, 12544, 13056, 13568, 14080, 14592, 15104, 15616,
    16128] ∧
  row 7 = [16896, 17920, 18944, 19968, 20992, 22016, 23040, 24064, 25088, 26112, 27136, 28160, 29184, 30208, 31232,
    32256]

/-- R104, R105: the decoder's range and its odd symmetry in the wire sign bit; no code decodes to 0. -/
def Obligations.DecoderRangeAndOddSymmetry : Prop :=
  ∀ b : Byte, decodeSample (b ^^^ 0x80) = -decodeSample b ∧ 264 ≤ (decodeSample b).natAbs ∧
    (decodeSample b).natAbs ≤ 32256 ∧ (signField (fold b) = true ↔ decodeSample b < 0)

/-! ## ENCODE -/

/-- R120, R122: ENCODE answers with the codes of its samples, one byte each. -/
def Obligations.EncodeAnswersWithTheCodes : Prop :=
  ∀ (q : Operands) (s : State), acceptable s.build q → q.inLen % 2 = 0 →
    producible s.build (q.inLen / 2) →
    ∃ out, answersOk (.encode q) s out ∧ out.length = q.inLen / 2 ∧
      ∀ k, k < q.inLen / 2 → out[k]? = some (encodeSample s.build.expRule (sample q.frame k))

/-- R121, R124, R125: the exponent is the least of 0 to 7 that fits, in both readings, for every magnitude. -/
def Obligations.EncoderExponentIsTheLeastThatFits : Prop :=
  ∀ (rule : Config.ExpRule) (mag : Nat),
    let b := biasedMagnitude mag
    let e := exponentOf rule b
    132 ≤ b ∧ b ≤ 8191 ∧ e ≤ 7 ∧ fits rule b e = true ∧ ∀ k, k < e → fits rule b k = false

/-- R131: under BITSPAN the code (E, M) is given to exactly the magnitudes between the two bounds of the rule. -/
def Obligations.EncoderThresholds : Prop :=
  ∀ (x : Int) (e m : Nat), -32768 ≤ x → x ≤ 32767 → e ≤ 5 → m ≤ 15 →
    (encodeSample .bitspan x = fold (BitVec.ofNat 8 (packFields (decide (x < 0)) e m)) ↔
      ((16 + m) * 2 ^ (e + 3) - 132 ≤ x.natAbs ∧
        x.natAbs ≤ if e = 5 ∧ m = 15 then 32768 else (17 + m) * 2 ^ (e + 3) - 133))

/-- R130: under BITSPAN the codes produced are those with an exponent of 0 to 5, and every one of them is; from
magnitude 7804 on the code is (5, 15). -/
def Obligations.EncoderImage : Prop :=
  (∀ x : Int, exponentField (fold (encodeSample .bitspan x)) ≤ 5) ∧
  (∀ c : Byte, exponentField (fold c) ≤ 5 → ∃ x : Int, -32768 ≤ x ∧ x ≤ 32767 ∧ encodeSample .bitspan x = c) ∧
  ∀ x : Int, 7804 ≤ x.natAbs → encodeSample .bitspan x = if x < 0 then 0x20 else 0xA0

/-- R132: under BITSPAN the code number does not fall as a positive sample grows, and the encoder is odd but for 0
and for -32768. -/
def Obligations.EncoderIsMonotoneAndOdd : Prop :=
  (∀ x y : Int, 0 ≤ x → x ≤ y →
    (fold (encodeSample .bitspan x)).toNat ≤ (fold (encodeSample .bitspan y)).toNat) ∧
  (∀ x : Int, x ≠ 0 → x ≠ -32768 → -32768 ≤ x → x ≤ 32767 →
    encodeSample .bitspan (-x) = encodeSample .bitspan x ^^^ 0x80) ∧
  encodeSample .bitspan (-32768) = encodeSample .bitspan 32767 ^^^ 0x80 ∧
  encodeSample .bitspan (-32768) = 0x20 ∧ encodeSample .bitspan 0 = 0xFF ∧ encodeSample .bitspan (-1) = 0x7F

/-- R125: where the two readings of "fits within" differ, the numeric one gives an exponent one higher and the
mantissa 15. -/
def Obligations.ExponentRulesDifferExactlyThere : Prop :=
  ∀ x : Int,
    let b := biasedMagnitude x.natAbs
    let u := fold (encodeSample .numericLe x)
    let v := fold (encodeSample .bitspan x)
    let apart := b = 511 ∨ 1021 ≤ b ∧ b ≤ 1023 ∨ 2041 ≤ b ∧ b ≤ 2047 ∨ 4081 ≤ b ∧ b ≤ 4095 ∨ 8161 ≤ b ∧ b ≤ 8191
    (u ≠ v ↔ apart) ∧ (apart → exponentField u = exponentField v + 1 ∧ mantissaField u = 15)

/-- R133: the round trip through encoder and decoder, range by range. -/
def Obligations.RoundTripErrorTable : Prop :=
  let r (x : Int) : Int := decodeSample (encodeSample .bitspan x)
  (∀ x : Int,
    (0 ≤ x ∧ x ≤ 123 → 261 ≤ r x - x ∧ r x - x ≤ 268) ∧
    (124 ≤ x ∧ x ≤ 379 → 125 ≤ r x - x ∧ r x - x ≤ 140) ∧
    (380 ≤ x ∧ x ≤ 891 → 117 ≤ r x - x ∧ r x - x ≤ 148) ∧
    (892 ≤ x ∧ x ≤ 1915 → 101 ≤ r x - x ∧ r x - x ≤ 164) ∧
    (1916 ≤ x ∧ x ≤ 3963 → 69 ≤ r x - x ∧ r x - x ≤ 196) ∧
    (3964 ≤ x ∧ x ≤ 8059 → 5 ≤ r x - x ∧ r x - x ≤ 260) ∧
    (8060 ≤ x ∧ x ≤ 32767 → r x = 8064) ∧
    (1 ≤ x ∧ x ≤ 32767 → r (-x) = -r x) ∧
    (-32768 ≤ x ∧ x ≤ 32767 → (r x = x ↔ x = 8064 ∨ x = -8064))) ∧
  r (-32768) = -8064 ∧ r 0 = 264

/-- R135: only two codes survive decoding and encoding. -/
def Obligations.CodecFixedCodes : Prop :=
  ∀ c : Byte, encodeSample .bitspan (decodeSample c) = c ↔ c = 0xA0 ∨ c = 0x20

/-! ## RESAMPLE -/

/-- R140 to R147: RESAMPLE answers with the interpolated samples. -/
def Obligations.ResampleAnswersWithTheInterpolation : Prop :=
  ∀ (q : Operands) (s : State),
    let n := q.inLen / 2
    let inHz := (signedRate s.build q.inRate).toNat
    let outHz := (signedRate s.build q.outRate).toNat
    let m := n * outHz / inHz
    acceptable s.build q → q.inLen % 2 = 0 → 0 < signedRate s.build q.inRate → 0 < signedRate s.build q.outRate →
    producible s.build (2 * m) →
    ∃ out, answersOk (.resample q) s out ∧ out.length = 2 * m ∧
      ∀ i, i < m →
        let f := i * inHz / outHz
        let r := i * inHz % outHz
        let a := sample q.frame f
        let b := sample q.frame (min (f + 1) (n - 1))
        sample out i = roundQuotient s.build.roundTie (a * outHz + (b - a) * r) outHz

/-- R147: rounding gives a nearest integer under every tie rule; off a tie the rules agree; on a tie each does what
the rule says. -/
def Obligations.RoundingIsToNearest : Prop :=
  ∀ (num : Int) (d : Nat), 0 < d →
    (∀ tie, (2 * (roundQuotient tie num d * d - num)).natAbs ≤ d) ∧
    ((2 * num) % (2 * d) ≠ d → ∀ t u, roundQuotient t num d = roundQuotient u num d) ∧
    ((2 * num) % (2 * d) = d →
      2 * (roundQuotient .halfUp num d * d) = 2 * num + d ∧
      2 * ((roundQuotient .halfAway num d).natAbs * d) = 2 * num.natAbs + d ∧
      roundQuotient .halfEven num d % 2 = 0)

/-- R148: no output sample leaves the range of the input frame. -/
def Obligations.ResampledFrameStaysInRange : Prop :=
  ∀ (b : Config.Build) (f : Frame) (inHz outHz : Nat) (lo hi : Int), 0 < inHz → 0 < outHz →
    (∀ k, k < f.length / 2 → lo ≤ sample f k ∧ sample f k ≤ hi) →
    ∀ i, i < outputSamples (f.length / 2) inHz outHz →
      lo ≤ sample (resampleFrame b f inHz outHz) i ∧ sample (resampleFrame b f inHz outHz) i ≤ hi

/-- R153: the reads are in bounds. -/
def Obligations.ResamplerReadsInsideTheFrame : Prop :=
  ∀ n inHz outHz i : Nat, 0 < inHz → 0 < outHz → i < outputSamples n inHz outHz →
    1 ≤ n ∧ floorIdx i inHz outHz ≤ n - 1 ∧ ceilIdx n (floorIdx i inHz outHz) ≤ n - 1

/-- R160: equal rates give the frame back byte for byte. -/
def Obligations.EqualRatesGiveTheFrameBack : Prop :=
  ∀ (b : Config.Build) (f : Frame) (hz : Nat), 0 < hz → f.length % 2 = 0 → resampleFrame b f hz hz = f

/-- R152: only the ratio of the rates matters. -/
def Obligations.OnlyTheRatioOfTheRatesMatters : Prop :=
  ∀ (b : Config.Build) (f : Frame) (inHz outHz g : Nat), 0 < inHz → 0 < outHz → 1 ≤ g →
    resampleFrame b f (g * inHz) (g * outHz) = resampleFrame b f inHz outHz

/-- R161: down-sampling by a whole factor keeps every `d`-th sample. -/
def Obligations.WholeDownSamplingKeepsEveryDthSample : Prop :=
  ∀ (b : Config.Build) (f : Frame) (outHz d : Nat), 0 < outHz → 1 ≤ d →
    let out := resampleFrame b f (d * outHz) outHz
    out.length = 2 * (f.length / 2 / d) ∧ ∀ i, i < f.length / 2 / d → sample out i = sample f (i * d)

/-- R154, R162: up-sampling by a whole factor interpolates between neighbours and holds the last sample. -/
def Obligations.WholeUpSamplingInterpolatesAndHoldsTheEdge : Prop :=
  ∀ (b : Config.Build) (f : Frame) (inHz l : Nat), 0 < inHz → 1 ≤ l →
    let n := f.length / 2
    let out := resampleFrame b f inHz (l * inHz)
    out.length = 2 * (n * l) ∧
    ∀ k j, k < n → j < l →
      sample out (k * l + j) =
        if k = n - 1 then sample f k
        else roundQuotient b.roundTie (sample f k * l + (sample f (k + 1) - sample f k) * j) l

/-! ## The pipelines -/

/-- R170, R172, R174: T2E answers with three samples for each byte, by the closed form, whatever the tie rule. -/
def Obligations.T2eAnswersWithTheClosedForm : Prop :=
  ∀ (q : Operands) (s : State), acceptable s.build q → producible s.build (6 * q.inLen) →
    ∃ out, answersOk (.t2e q) s out ∧ out.length = 6 * q.inLen ∧
      ∀ k j b, q.frame[k]? = some b → j < 3 →
        (k + 1 = q.inLen → sample out (3 * k + j) = decodeSample b) ∧
        ∀ c, q.frame[k + 1]? = some c → ∀ tie,
          sample out (3 * k + j) =
            roundQuotient tie (decodeSample b * 3 + (decodeSample c - decodeSample b) * j) 3

/-- R171, R172, R174: E2T answers with the code of every third sample. -/
def Obligations.E2tAnswersWithEveryThirdSample : Prop :=
  ∀ (q : Operands) (s : State), acceptable s.build q → q.inLen % 2 = 0 →
    producible s.build (q.inLen / 2 / 3) →
    ∃ out, answersOk (.e2t q) s out ∧ out.length = q.inLen / 2 / 3 ∧
      ∀ i, i < q.inLen / 2 / 3 →
        out[i]? = some (encodeSample s.build.expRule (sample q.frame (3 * i)))

/-- R83, R178: T2E is DECODE and then RESAMPLE 8000 24000 on what DECODE answered (both requests within MAX_IN_BYTES,
R80, and a RATE_W in which 24000 is a positive rate). -/
def Obligations.T2eEqualsDecodeThenResample : Prop :=
  ∀ (q : Operands) (s : State) (y : Frame), 16 ≤ s.build.rateW → acceptable s.build q →
    2 * q.inLen ≤ s.build.maxInBytes →
    (answersOk (.t2e q) s y ↔
      ∃ w, answersOk (.decode q) s w ∧ answersOk (.resample ⟨8000, 24000, w.length, w⟩) s y)

/-- R83, R178: E2T is RESAMPLE 24000 8000 and then ENCODE on what RESAMPLE answered (the intermediate output within
the bounds of R80, and a RATE_W in which 24000 is a positive rate); the two end in ODD_LENGTH together. -/
def Obligations.E2tEqualsResampleThenEncode : Prop :=
  ∀ (q : Operands) (s : State) (y : Frame), 16 ≤ s.build.rateW → acceptable s.build q →
    let first : Instr := .resample { q with inRate := 24000, outRate := 8000 }
    (producible s.build (2 * (q.inLen / 2 / 3)) →
      (answersOk (.e2t q) s y ↔
        ∃ w, answersOk first s w ∧ answersOk (.encode ⟨0, 0, w.length, w⟩) s y)) ∧
    (answersError (.e2t q) s 0b001 ↔ answersError first s 0b001)

/-- R175: out through T2E and back through E2T, a byte becomes the code of its own decoded sample. -/
def Obligations.PipelinesThereAndBack : Prop :=
  ∀ (b : Config.Build) (f : Frame),
    e2tFrame b (t2eFrame b f) = f.map fun c => encodeSample b.expRule (decodeSample c)

/-! ## The rate fields -/

/-- R75: a rate field of RATE_W bits is read as a two's complement integer: the patterns with the top bit set are
negative, 0 stands for 0, and the positive ones are 1 to `2 ^ (RATE_W - 1) - 1`. -/
def Obligations.RateFieldsAreTwosComplement : Prop :=
  ∀ (b : Config.Build) (r : Nat), 1 ≤ b.rateW → r < 2 ^ b.rateW →
    signedRate b r = (BitVec.ofNat b.rateW r).toInt ∧
    (0 < signedRate b r ↔ 1 ≤ r ∧ r ≤ 2 ^ (b.rateW - 1) - 1) ∧
    (0 < signedRate b r → rateHz b r = r)
end

