-- ==== Sys2Proof/Laws/Codec.lean ====
section
/-! SUPPORT. Small facts of the decoder and the encoder: byte order, the operation map, the control fields. -/

namespace Sys2Proof

@[simp] theorem leBytes_length (n v : Nat) : (leBytes n v).length = n := by
  induction n generalizing v with
  | zero => rfl
  | succ n ih => simp [leBytes, ih]

/-- Bytes hold the number they were made from, as far as they reach. -/
theorem leNat_leBytes (n v : Nat) : leNat (leBytes n v) = v % 256 ^ n := by
  induction n generalizing v with
  | zero => simp [leNat, leBytes, Nat.mod_one]
  | succ n ih =>
    simp only [leBytes, leNat, ih, BitVec.toNat_ofNat]
    rw [show (256 : Nat) ^ (n + 1) = 256 * 256 ^ n by rw [Nat.pow_succ, Nat.mul_comm], Nat.mod_mul]

/-- Bytes are the bytes of the number they hold. -/
theorem leBytes_leNat (bs : List Byte) : leBytes bs.length (leNat bs) = bs := by
  induction bs with
  | nil => rfl
  | cons b bs ih =>
    have hb : b.toNat < 256 := b.isLt
    have h1 : (b.toNat + 256 * leNat bs) / 256 = leNat bs := by omega
    have h2 : BitVec.ofNat 8 (b.toNat + 256 * leNat bs) = b := by
      apply BitVec.eq_of_toNat_eq; simp; omega
    simp [leNat, leBytes, h1, h2, ih]

theorem leNat_lt (bs : List Byte) : leNat bs < 256 ^ bs.length := by
  induction bs with
  | nil => simp [leNat]
  | cons b bs ih =>
    have hb : b.toNat < 256 := b.isLt
    simp only [leNat, List.length_cons, Nat.pow_succ]
    omega

/-- The operation map undoes the numbering (R70). -/
@[simp] theorem instrOf_opBits (i : Instr) : instrOf i.opBits i.operands = i := by
  cases i <;> rfl

@[simp] theorem instrOf_operands (op : BitVec 3) (q : Operands) : (instrOf op q).operands = q := by
  unfold instrOf; split <;> rfl

/-- The numbering undoes the operation map (R70). -/
@[simp] theorem opBits_instrOf (op : BitVec 3) (q : Operands) : (instrOf op q).opBits = op := by
  have h : ∀ op : BitVec 3, ∀ n : Nat, op.toNat = n → (match n with
      | 0 => (0b000 : BitVec 3) | 1 => 0b001 | 2 => 0b010 | 3 => 0b011 | 4 => 0b100
      | 5 => 0b101 | 6 => 0b110 | _ => 0b111) = op := by
    intro op n hn; subst hn; revert op; decide
  rw [← h op _ rfl]
  unfold instrOf
  split <;> simp_all [Instr.opBits]

/-- A request decodes exactly when it is well formed, and to the instruction of the operation map (R70, R198). -/
theorem decodeRequest_eq_ok {b : Config.Build} {rq : Request} {i : Instr} :
    decodeRequest b rq = .ok i ↔ rq.toOperands.WF b ∧ i = instrOf rq.op rq.toOperands := by
  unfold decodeRequest Operands.WF
  by_cases h1 : rq.FieldsFit b
  · by_cases h2 : rq.inLen = rq.frame.length
    · rw [if_neg (not_not.2 h1), if_neg (not_not.2 h2)]
      exact ⟨fun h => ⟨⟨h1, h2⟩, (Except.ok.inj h).symm⟩, fun h => congrArg _ h.2.symm⟩
    · rw [if_neg (not_not.2 h1), if_pos h2]
      exact ⟨(fun h => nomatch h), fun h => absurd h.1.2 h2⟩
  · rw [if_pos h1]
    exact ⟨(fun h => nomatch h), fun h => absurd h.1.1 h1⟩

/-- What a request that decodes is. -/
theorem decodeRequest_ok {b : Config.Build} {rq : Request} {i : Instr} (h : decodeRequest b rq = .ok i) :
    i = instrOf rq.op rq.toOperands ∧ i.WF b ∧ encodeRequest i = rq := by
  obtain ⟨hw, rfl⟩ := decodeRequest_eq_ok.1 h
  exact ⟨rfl, by unfold Instr.WF; rw [instrOf_operands]; exact hw, by simp [encodeRequest]⟩

/-- One digit in a mixed radix. -/
theorem digit_mod (a m x : Nat) (h : a < m) : (a + m * x) % m = a := by
  rw [Nat.add_mul_mod_self_left, Nat.mod_eq_of_lt h]

theorem digit_div (a m x : Nat) (h : a < m) : (a + m * x) / m = x := by
  rw [Nat.add_mul_div_left _ _ (Nat.zero_lt_of_lt h), Nat.div_eq_of_lt h, Nat.zero_add]

/-- The control fields, one after another, out of their number (log entry 1). -/
theorem header_digits (b : Config.Build) {rq : Request} (h : rq.FieldsFit b) :
    headerOf b rq / 2 ^ 3 = rq.inRate + 2 ^ b.rateW * (rq.outRate + 2 ^ b.rateW * rq.inLen) ∧
    headerOf b rq / 2 ^ 3 / 2 ^ b.rateW = rq.outRate + 2 ^ b.rateW * rq.inLen ∧
    headerOf b rq / 2 ^ 3 / 2 ^ b.rateW / 2 ^ b.rateW = rq.inLen := by
  obtain ⟨h1, h2, -⟩ := h
  have e0 : headerOf b rq / 2 ^ 3 = rq.inRate + 2 ^ b.rateW * (rq.outRate + 2 ^ b.rateW * rq.inLen) :=
    digit_div _ _ _ rq.op.isLt
  rw [e0, digit_div _ _ _ h1, digit_div _ _ _ h2]
  exact ⟨rfl, rfl, rfl⟩

/-- The control fields come back out of their number (log entry 1). -/
theorem requestOfHeader_headerOf (b : Config.Build) {rq : Request} (h : rq.FieldsFit b) :
    requestOfHeader b (headerOf b rq) rq.frame = rq := by
  obtain ⟨e0, e1, e2⟩ := header_digits b h
  have ho : BitVec.ofNat 3 (headerOf b rq) = rq.op := by
    apply BitVec.eq_of_toNat_eq
    rw [BitVec.toNat_ofNat]
    exact digit_mod _ _ _ rq.op.isLt
  obtain ⟨h1, h2, h3⟩ := h
  unfold requestOfHeader
  rw [ho, e2, e1, e0, digit_mod _ _ _ h1, digit_mod _ _ _ h2, Nat.mod_eq_of_lt h3]

/-- Nothing stands above the control fields (log entry 1). -/
theorem headerPadding_headerOf (b : Config.Build) {rq : Request} (h : rq.FieldsFit b) :
    headerPadding b (headerOf b rq) = 0 := by
  unfold headerPadding
  rw [(header_digits b h).2.2]
  exact Nat.div_eq_of_lt h.2.2

/-- The number of the control fields fits their bytes (R72). -/
theorem headerOf_lt (b : Config.Build) {rq : Request} (h : rq.FieldsFit b) :
    headerOf b rq < 256 ^ headerBytes b := by
  have hp := headerPadding_headerOf b h
  unfold headerPadding at hp
  rw [Nat.div_div_eq_div_mul, Nat.div_div_eq_div_mul, Nat.div_div_eq_div_mul, ← Nat.pow_add, ← Nat.pow_add,
    ← Nat.pow_add, Nat.div_eq_zero_iff_lt (Nat.two_pow_pos _)] at hp
  refine Nat.lt_of_lt_of_le hp ?_
  rw [show (256 : Nat) = 2 ^ 8 from rfl, ← Nat.pow_mul]
  apply Nat.pow_le_pow_right (by decide)
  unfold headerBytes
  omega

/-- The fields taken out of a number fit their widths. -/
theorem requestOfHeader_fits (b : Config.Build) (h : Nat) (f : Frame) : (requestOfHeader b h f).FieldsFit b :=
  ⟨Nat.mod_lt _ (Nat.two_pow_pos _), Nat.mod_lt _ (Nat.two_pow_pos _), Nat.mod_lt _ (Nat.two_pow_pos _)⟩

/-- The number comes back out of the control fields when no bit is set above them (log entry 1). -/
theorem headerOf_requestOfHeader (b : Config.Build) {h : Nat} (hz : headerPadding b h = 0) (f : Frame) :
    headerOf b (requestOfHeader b h f) = h := by
  unfold headerPadding at hz
  have hl : h / 2 ^ 3 / 2 ^ b.rateW / 2 ^ b.rateW % 2 ^ b.lenW = h / 2 ^ 3 / 2 ^ b.rateW / 2 ^ b.rateW := by
    have := Nat.mod_add_div (h / 2 ^ 3 / 2 ^ b.rateW / 2 ^ b.rateW) (2 ^ b.lenW)
    rwa [hz, Nat.mul_zero, Nat.add_zero] at this
  simp only [headerOf, requestOfHeader, BitVec.toNat_ofNat]
  rw [hl, Nat.mod_add_div, Nat.mod_add_div, Nat.mod_add_div]

end Sys2Proof
end

