-- ==== Sys2Proof/Laws/Flags.lean ====
section
/-! SUPPORT. The error mask of each operation (R77, R180 to R183), so that no proof unfolds the checks. -/

namespace Sys2Proof.Machine

variable (b : Config.Build) (q : Operands)

@[simp] theorem errMask_decode : errMask b (.decode q) = noError := by
  simp only [errMask, illegalOp, oddLength, badRate]; decide
@[simp] theorem errMask_t2e : errMask b (.t2e q) = noError := by
  simp only [errMask, illegalOp, oddLength, badRate]; decide
@[simp] theorem errMask_reserved5 : errMask b (.reserved5 q) = errIllegalOp := by
  simp only [errMask, illegalOp, oddLength, badRate]; decide
@[simp] theorem errMask_reserved6 : errMask b (.reserved6 q) = errIllegalOp := by
  simp only [errMask, illegalOp, oddLength, badRate]; decide
@[simp] theorem errMask_reserved7 : errMask b (.reserved7 q) = errIllegalOp := by
  simp only [errMask, illegalOp, oddLength, badRate]; decide

theorem oddFrame_eq : oddFrame q = decide (q.inLen % 2 = 1) := by
  unfold oddFrame
  by_cases h : q.inLen % 2 = 1 <;> simp [h]

theorem errMask_encode :
    errMask b (.encode q) = if q.inLen % 2 = 1 then errOddLength else noError := by
  simp only [errMask, illegalOp, oddLength, badRate, oddFrame_eq]
  by_cases h : q.inLen % 2 = 1 <;> simp only [h, if_true, if_false] <;> decide

theorem errMask_e2t :
    errMask b (.e2t q) = if q.inLen % 2 = 1 then errOddLength else noError := by
  simp only [errMask, illegalOp, oddLength, badRate, oddFrame_eq]
  by_cases h : q.inLen % 2 = 1 <;> simp only [h, if_true, if_false] <;> decide

/-- RESAMPLE has two checks, and each sets its own bit (R186). -/
theorem errMask_resample :
    errMask b (.resample q) =
      if q.inLen % 2 = 1 then
        if signedRate b q.inRate ≤ 0 ∨ signedRate b q.outRate ≤ 0 then 0b011 else errOddLength
      else if signedRate b q.inRate ≤ 0 ∨ signedRate b q.outRate ≤ 0 then errBadRate else noError := by
  simp only [errMask, illegalOp, oddLength, badRate, oddFrame_eq]
  by_cases h : q.inLen % 2 = 1 <;> by_cases h1 : signedRate b q.inRate ≤ 0 <;>
    by_cases h2 : signedRate b q.outRate ≤ 0 <;>
    simp only [h, h1, h2, true_or, or_true, or_self, if_true, if_false] <;> decide

end Sys2Proof.Machine
end

