-- ==== Sys2Proof/Laws/Frames.lean ====
section
/-! SUPPORT. Reading back what was stored: samples and bytes of a frame that was built in the order of its offsets
(R42, R57 to R59). -/

namespace Sys2Proof.Machine

/-- A read inside the frame gives the byte that stands there (R57). -/
theorem memRead1_of_getElem? {f : Frame} {a : Nat} {b : Byte} (h : f[a]? = some b) :
    memRead1 f a = b.toNat := by
  simp [memRead1, List.getD, h]

theorem memRead1_lt (f : Frame) (a : Nat) : memRead1 f a < 256 := BitVec.isLt _

theorem memRead2_eq (f : Frame) (a : Nat) : memRead2 f a = memRead1 f a + 256 * memRead1 f (a + 1) := by
  have h := Nat.two_pow_add_eq_or_of_lt (i := 8) (memRead1_lt f a) (memRead1 f (a + 1))
  unfold memRead2
  rw [Nat.shiftLeft_eq, Nat.or_comm, Nat.mul_comm _ (2 ^ 8), ← h]
  omega

/-- `sext_16` as R14 writes it. -/
theorem sext_16 (v : Nat) : sext 16 v = if v < 32768 then (v : Int) else (v : Int) - 65536 := rfl

/-- Every sample is in the 16-bit range (R64). -/
theorem pcmRead_bounds (f : Frame) (k : Nat) : -32768 ≤ pcmRead f k ∧ pcmRead f k ≤ 32767 := by
  have h1 := memRead1_lt f (2 * k)
  have h2 := memRead1_lt f (2 * k + 1)
  unfold pcmRead
  rw [sext_16, memRead2_eq]
  split <;> omega

theorem toNat_ofInt8 (v : Int) : ((BitVec.ofInt 8 v).toNat : Int) = v % 256 := by
  simp [BitVec.toNat_ofInt]
  omega

/-- The two stored bytes of a sample read back as the sample (R58, R59). -/
theorem pcmRead_of_bytes {f : Frame} {k : Nat} {s : Int} (hs : -32768 ≤ s ∧ s ≤ 32767)
    (h0 : f[2 * k]? = some (BitVec.ofInt 8 s)) (h1 : f[2 * k + 1]? = some (BitVec.ofInt 8 (s / 256))) :
    pcmRead f k = s := by
  have e0 := toNat_ofInt8 s
  have e1 := toNat_ofInt8 (s / 256)
  unfold pcmRead
  rw [sext_16, memRead2_eq, memRead1_of_getElem? h0, memRead1_of_getElem? h1]
  split <;> omega

theorem pcmFrame_succ (n : Nat) (g : Nat → Int) :
    pcmFrame (n + 1) g = pcmFrame n g ++ [BitVec.ofInt 8 (g n), BitVec.ofInt 8 (g n / 256)] := by
  simp [pcmFrame, List.range_succ, pcmStore, store2]

theorem byteFrame_succ (n : Nat) (g : Nat → Byte) : byteFrame (n + 1) g = byteFrame n g ++ [g n] := by
  simp [byteFrame, List.range_succ, store1]

/-- A frame of `n` samples has `2 n` bytes (R67). -/
@[simp] theorem pcmFrame_length (n : Nat) (g : Nat → Int) : (pcmFrame n g).length = 2 * n := by
  induction n with
  | zero => rfl
  | succ n ih => rw [pcmFrame_succ, List.length_append, ih]; rfl

/-- A frame of `n` μ-law bytes has `n` bytes (R67). -/
@[simp] theorem byteFrame_length (n : Nat) (g : Nat → Byte) : (byteFrame n g).length = n := by
  induction n with
  | zero => rfl
  | succ n ih => rw [byteFrame_succ, List.length_append, ih]; rfl

/-- The bytes of sample `j` of a frame built sample by sample (R44, R58). -/
theorem pcmFrame_bytes (g : Nat → Int) {n j : Nat} (h : j < n) :
    (pcmFrame n g)[2 * j]? = some (BitVec.ofInt 8 (g j)) ∧
    (pcmFrame n g)[2 * j + 1]? = some (BitVec.ofInt 8 (g j / 256)) := by
  induction n with
  | zero => omega
  | succ n ih =>
    rw [pcmFrame_succ]
    by_cases hj : j < n
    · rw [List.getElem?_append_left (by simp; omega), List.getElem?_append_left (by simp; omega)]
      exact ih hj
    · have : j = n := by omega
      subst this
      rw [List.getElem?_append_right (by simp), List.getElem?_append_right (by simp)]
      simp

/-- Sample `j` of a frame built sample by sample (R59). -/
theorem pcmRead_pcmFrame (g : Nat → Int) {n j : Nat} (h : j < n) (hs : -32768 ≤ g j ∧ g j ≤ 32767) :
    pcmRead (pcmFrame n g) j = g j :=
  pcmRead_of_bytes hs (pcmFrame_bytes g h).1 (pcmFrame_bytes g h).2

/-- Byte `j` of a frame built byte by byte (R58). -/
theorem byteFrame_getElem? (g : Nat → Byte) {n j : Nat} (h : j < n) : (byteFrame n g)[j]? = some (g j) := by
  induction n with
  | zero => omega
  | succ n ih =>
    rw [byteFrame_succ]
    by_cases hj : j < n
    · rw [List.getElem?_append_left (by simpa using hj)]
      exact ih hj
    · have : j = n := by omega
      subst this
      rw [List.getElem?_append_right (by simp)]
      simp

/-- Two frames built from the same samples are the same frame. -/
theorem pcmFrame_congr {n : Nat} {g h : Nat → Int} (e : ∀ k, k < n → g k = h k) : pcmFrame n g = pcmFrame n h := by
  induction n with
  | zero => rfl
  | succ n ih => rw [pcmFrame_succ, pcmFrame_succ, ih (fun k hk => e k (by omega)), e n (by omega)]

theorem byteFrame_congr {n : Nat} {g h : Nat → Byte} (e : ∀ k, k < n → g k = h k) :
    byteFrame n g = byteFrame n h := by
  induction n with
  | zero => rfl
  | succ n ih => rw [byteFrame_succ, byteFrame_succ, ih (fun k hk => e k (by omega)), e n (by omega)]

/-- The two bytes of a sample are the bytes a store of it puts there (R57 to R59). -/
theorem bytes_of_pcmRead {f : Frame} {k : Nat} {b0 b1 : Byte} (h0 : f[2 * k]? = some b0)
    (h1 : f[2 * k + 1]? = some b1) :
    BitVec.ofInt 8 (pcmRead f k) = b0 ∧ BitVec.ofInt 8 (pcmRead f k / 256) = b1 := by
  have l0 := b0.isLt
  have l1 := b1.isLt
  have e0 := toNat_ofInt8 (pcmRead f k)
  have e1 := toNat_ofInt8 (pcmRead f k / 256)
  have hr : pcmRead f k = (b0.toNat + 256 * b1.toNat : Int) ∨
      pcmRead f k = (b0.toNat + 256 * b1.toNat : Int) - 65536 := by
    unfold pcmRead
    rw [sext_16, memRead2_eq, memRead1_of_getElem? h0, memRead1_of_getElem? h1]
    split
    · left; omega
    · right; omega
  generalize pcmRead f k = s at e0 e1 hr ⊢
  constructor <;> apply BitVec.eq_of_toNat_eq <;> omega

/-- A PCM16 frame is the frame of its own samples (R67). -/
theorem pcmFrame_pcmRead {f : Frame} {n : Nat} (h : f.length = 2 * n) : pcmFrame n (pcmRead f) = f := by
  apply List.ext_getElem?
  intro i
  by_cases hi : i < 2 * n
  · have hb := pcmFrame_bytes (pcmRead f) (n := n) (j := i / 2) (by omega)
    have g0 : f[2 * (i / 2)]? = some f[2 * (i / 2)] := List.getElem?_eq_getElem (by omega)
    have g1 : f[2 * (i / 2) + 1]? = some f[2 * (i / 2) + 1] := List.getElem?_eq_getElem (by omega)
    have hr := bytes_of_pcmRead g0 g1
    rcases Nat.mod_two_eq_zero_or_one i with h2 | h2
    · have e : i = 2 * (i / 2) := by omega
      rw [e, hb.1, g0, hr.1]
    · have e : i = 2 * (i / 2) + 1 := by omega
      rw [e, hb.2, g1, hr.2]
  · rw [List.getElem?_eq_none (by simp; omega), List.getElem?_eq_none (by omega)]

/-- A μ-law input byte read as the decoder reads it (R100). -/
theorem ofNat_memRead1 {f : Frame} {k : Nat} {b : Byte} (h : f[k]? = some b) :
    BitVec.ofNat 8 (memRead1 f k) = b := by
  rw [memRead1_of_getElem? h]; simp

end Sys2Proof.Machine
end

