-- ==== Sys2Proof/Laws/Mulaw.lean ====
section
/-! SUPPORT. The μ-law units: lengths, the search for the exponent as a chain of tests, ranges. -/

namespace Sys2Proof.Machine

/-- The clamp of R101 keeps a sample in the 16-bit range. -/
theorem decodeSample_bounds (b : Byte) : -32768 ≤ decodeSample b ∧ decodeSample b ≤ 32767 := by
  unfold decodeSample clamp pcmMin pcmMax
  dsimp only
  omega

@[simp] theorem decodeFrame_length (f : Frame) : (decodeFrame f).length = 2 * f.length := by
  simp [decodeFrame]

/-- Sample `k` of a decoded frame (R100). -/
theorem pcmRead_decodeFrame {f : Frame} {k : Nat} {b : Byte} (h : f[k]? = some b) :
    pcmRead (decodeFrame f) k = decodeSample b := by
  have hk : k < f.length := (List.getElem?_eq_some_iff.1 h).1
  rw [decodeFrame, pcmRead_pcmFrame _ hk (decodeSample_bounds _), ofNat_memRead1 h]

@[simp] theorem encodeFrame_length (rule : Config.ExpRule) (f : Frame) :
    (encodeFrame rule f).length = f.length / 2 := by
  simp [encodeFrame]

/-- Byte `k` of an encoded frame (R120). -/
theorem encodeFrame_getElem? (rule : Config.ExpRule) {f : Frame} {k : Nat} (h : k < f.length / 2) :
    (encodeFrame rule f)[k]? = some (encodeSample rule (pcmRead f k)) :=
  byteFrame_getElem? _ h

/-- The range of the biased magnitude (R124). -/
theorem biasedMagnitude_bounds (mag : Nat) : 132 ≤ biasedMagnitude mag ∧ biasedMagnitude mag ≤ 8191 := by
  unfold biasedMagnitude bias mulawMax
  omega

theorem fits_bitspan (b e : Nat) : fits .bitspan b e = decide (b < 256 * 2 ^ e) := by
  simp [fits, Nat.shiftLeft_eq]

theorem fits_numericLe (b e : Nat) : fits .numericLe b e = decide (b ≤ 255 * 2 ^ e) := by
  simp [fits, Nat.shiftLeft_eq]

/-- The search of R121 as a chain of tests. -/
theorem exponentOf_eq (rule : Config.ExpRule) (b : Nat) :
    exponentOf rule b =
      if fits rule b 0 then 0 else if fits rule b 1 then 1 else if fits rule b 2 then 2
      else if fits rule b 3 then 3 else if fits rule b 4 then 4 else if fits rule b 5 then 5
      else if fits rule b 6 then 6 else if fits rule b 7 then 7 else Config.unfitExponent b := by
  have hr : List.range 8 = [0, 1, 2, 3, 4, 5, 6, 7] := by decide
  unfold exponentOf
  rw [hr]
  simp only [List.find?_cons, List.find?_nil]
  cases fits rule b 0 <;> cases fits rule b 1 <;> cases fits rule b 2 <;> cases fits rule b 3 <;>
    cases fits rule b 4 <;> cases fits rule b 5 <;> cases fits rule b 6 <;> cases fits rule b 7 <;> rfl

/-- The four mantissa bits by division (R126). -/
theorem mantissaOf_eq (b e : Nat) : mantissaOf b e = b / 2 ^ (e + 3) % 16 := by
  unfold mantissaOf
  rw [Nat.shiftRight_eq_div_pow]
  exact Nat.and_two_pow_sub_one_eq_mod _ 4

/-- The packed code as a sum: the fields do not overlap (R61, R74). -/
theorem packFields_eq (s : Bool) {e m : Nat} (he : e < 8) (hm : m < 16) :
    packFields s e m = 128 * s.toNat + 16 * e + m := by
  have hs : s.toNat < 2 := by cases s <;> decide
  have h : ∀ a : Fin 2, ∀ e : Fin 8, ∀ m : Fin 16,
      ((a.val <<< 7) ||| (e.val <<< 4) ||| m.val) = 128 * a.val + 16 * e.val + m.val := by decide
  exact h ⟨_, hs⟩ ⟨e, he⟩ ⟨m, hm⟩

theorem fold_fold (b : Byte) : fold (fold b) = b := by simp [fold]

theorem fold_toNat (b : Byte) : (fold b).toNat = 255 - b.toNat := by simp [fold, BitVec.toNat_not]

end Sys2Proof.Machine
end

