-- ==== Sys2Proof/Laws/Resample.lean ====
section
/-! SUPPORT. The resampler's arithmetic: the position of an output sample, and rounding. -/

namespace Sys2Proof.Machine

/-- The position of an output sample, times `out_rate`, is inside the frame (R153). -/
theorem index_mul_lt {n inRate outRate i : Nat} (h : i < outputSamples n inRate outRate) :
    i * inRate < n * outRate := by
  unfold outputSamples at h
  rcases Nat.eq_zero_or_pos inRate with h0 | h0
  · subst h0; simp at h
  · have h2 : (i + 1) * inRate ≤ n * outRate := (Nat.le_div_iff_mul_le h0).1 h
    rw [Nat.succ_mul] at h2
    exact Nat.lt_of_lt_of_le (Nat.lt_add_of_pos_right h0) h2

/-- Rounding to nearest does not leave an interval with whole ends (R147, R148). -/
theorem roundUp_between {num lo hi : Int} {d : Nat} (hd : 0 < d) (h1 : lo * d ≤ num) (h2 : num ≤ hi * d) :
    lo ≤ roundUp num d ∧ roundUp num d ≤ hi := by
  have hd' : (0 : Int) < 2 * d := by omega
  unfold roundUp
  constructor
  · rw [Int.le_ediv_iff_mul_le hd']
    have : lo * (2 * (d : Int)) = 2 * (lo * d) := by rw [Int.mul_left_comm]
    omega
  · apply Int.le_of_lt_add_one
    rw [Int.ediv_lt_iff_lt_mul hd']
    have : (hi + 1) * (2 * (d : Int)) = 2 * (hi * d) + 2 * d := by
      rw [Int.add_mul, Int.one_mul, Int.mul_left_comm]
    omega

/-- The defining inequalities of `roundUp`: `2 d r ≤ 2 num + d < 2 d (r + 1)`. -/
theorem roundUp_spec (num : Int) {d : Nat} (hd : 0 < d) :
    2 * (roundUp num d * d) ≤ 2 * num + d ∧ 2 * num + d < 2 * (roundUp num d * d) + 2 * d := by
  have hd' : (0 : Int) < 2 * d := by omega
  have h1 := Int.ediv_mul_le (2 * num + d) (Int.ne_of_gt hd')
  have h2 := Int.lt_ediv_add_one_mul_self (2 * num + d) hd'
  have e1 : roundUp num d * (2 * (d : Int)) = 2 * (roundUp num d * d) := by rw [Int.mul_left_comm]
  have e2 : (roundUp num d + 1) * (2 * (d : Int)) = 2 * (roundUp num d * d) + 2 * d := by
    rw [Int.add_mul, Int.one_mul, Int.mul_left_comm]
  unfold roundUp at e1 e2 ⊢
  omega

/-- A whole quotient is rounded to itself, under every tie rule. -/
theorem roundQuotient_mul (tie : Config.RoundTie) (a : Int) {d : Nat} (hd : 0 < d) :
    roundQuotient tie (a * d) d = a := by
  have hup : ∀ x : Int, roundUp (x * d) d = x := fun x => by
    have := roundUp_between (num := x * d) (lo := x) (hi := x) hd (Int.le_refl _) (Int.le_refl _)
    omega
  cases tie with
  | halfUp => exact hup a
  | halfAway =>
    have hsd : Int.sign (d : Int) = 1 := Int.sign_eq_one_of_pos (by omega)
    simp only [roundQuotient, Int.natAbs_mul, Int.sign_mul, hsd, Int.mul_one, Int.natAbs_natCast]
    rw [Int.natCast_mul, hup]
    exact Int.sign_mul_natAbs a
  | halfEven =>
    have ht : isTie (a * d) d = false := by
      unfold isTie
      have : 2 * (a * (d : Int)) = (2 * d) * a := by rw [Int.mul_comm a, Int.mul_assoc]
      rw [this, Int.mul_emod_right]
      simp; omega
    simp [roundQuotient, ht, hup]

/-- A tie is one less than twice the value it is rounded up to (R147). -/
theorem roundUp_of_isTie {num : Int} {d : Nat} (hd : 0 < d) (h : isTie num d = true) :
    2 * num = 2 * (roundUp num d * d) - d := by
  simp only [isTie, decide_eq_true_eq] at h
  have hs := roundUp_spec num hd
  have hq := Int.emod_add_mul_ediv (2 * num) (2 * d)
  rw [h] at hq
  have hd' : (0 : Int) < d := by omega
  have e : roundUp num d = 2 * num / (2 * d) + 1 := by
    generalize 2 * num / (2 * (d : Int)) = k at hq
    apply Int.le_antisymm
    · by_contra hc
      nlinarith [hs.1, hs.2]
    · by_contra hc
      nlinarith [hs.1, hs.2]
  rw [e]
  linear_combination -hq

/-- Rounding to nearest, under every tie rule, does not leave an interval with whole ends (R148). -/
theorem roundQuotient_between (tie : Config.RoundTie) {num lo hi : Int} {d : Nat} (hd : 0 < d)
    (h1 : lo * d ≤ num) (h2 : num ≤ hi * d) :
    lo ≤ roundQuotient tie num d ∧ roundQuotient tie num d ≤ hi := by
  have hu := roundUp_between hd h1 h2
  have hd' : (0 : Int) < d := by omega
  cases tie with
  | halfUp => exact hu
  | halfAway =>
    simp only [roundQuotient]
    rcases lt_trichotomy num 0 with h | h | h
    · rw [Int.sign_eq_neg_one_of_neg h, show (num.natAbs : Int) = -num by omega]
      have := roundUp_between (num := -num) (lo := -hi) (hi := -lo) hd (by rw [Int.neg_mul]; omega)
        (by rw [Int.neg_mul]; omega)
      omega
    · subst h
      simp only [Int.sign_zero, Int.zero_mul]
      constructor <;> by_contra hc <;> nlinarith
    · rw [Int.sign_eq_one_of_pos h, show (num.natAbs : Int) = num by omega, Int.one_mul]
      exact hu
  | halfEven =>
    simp only [roundQuotient]
    split
    · rename_i h
      have ht := roundUp_of_isTie hd h.1
      refine ⟨?_, by omega⟩
      by_contra hc
      rw [show roundUp num d = lo by omega] at ht
      omega
    · exact hu

/-- Numerator and denominator may be scaled together (R152). -/
theorem roundQuotient_scale (tie : Config.RoundTie) (num : Int) (d : Nat) {g : Nat} (hg : 0 < g) :
    roundQuotient tie (num * g) (g * d) = roundQuotient tie num d := by
  have hg' : (0 : Int) < g := by omega
  have e : ∀ x : Int, 2 * (x * (g : Int)) = g * (2 * x) := fun x => by ring
  have e2 : 2 * ((g * d : Nat) : Int) = g * (2 * d) := by push_cast; ring
  have hu : ∀ x : Int, roundUp (x * g) (g * d) = roundUp x d := fun x => by
    unfold roundUp
    rw [show 2 * (x * (g : Int)) + ((g * d : Nat) : Int) = g * (2 * x + d) by push_cast; ring, e2]
    exact Int.mul_ediv_mul_of_pos _ _ hg'
  have ht : isTie (num * g) (g * d) = isTie num d := by
    unfold isTie
    rw [e, e2, Int.mul_emod_mul_of_pos _ _ hg']
    simp only [decide_eq_decide]
    push_cast
    exact ⟨fun h => Int.eq_of_mul_eq_mul_left (by omega) h, fun h => by rw [h]⟩
  cases tie with
  | halfUp => exact hu num
  | halfAway =>
    simp only [roundQuotient, Int.natAbs_mul, Int.sign_mul, Int.natAbs_natCast, Int.sign_eq_one_of_pos hg',
      Int.mul_one]
    push_cast
    rw [hu]
  | halfEven => simp only [roundQuotient, hu, ht]

@[simp] theorem resampleFrame_length (b : Config.Build) (f : Frame) (inRate outRate : Nat) :
    (resampleFrame b f inRate outRate).length = 2 * outputSamples (f.length / 2) inRate outRate := by
  simp [resampleFrame]

@[simp] theorem kernelSample_eq (b : Config.Build) (f : Frame) (inRate outRate i : Nat) :
    kernelSample b f inRate outRate i = linearSample b.roundTie f inRate outRate i := by
  unfold kernelSample; cases b.kernel; rfl

/-- Where the source position is a whole number the output is that input sample (R161). -/
theorem linearSample_whole (tie : Config.RoundTie) (f : Frame) {inRate outRate i j : Nat} (ho : 0 < outRate)
    (h : i * inRate = j * outRate) : linearSample tie f inRate outRate i = pcmRead f j := by
  have h1 : floorIdx i inRate outRate = j := by
    unfold floorIdx; rw [h]; exact Nat.mul_div_cancel _ ho
  have h2 : fracNum i inRate outRate = 0 := by
    unfold fracNum; rw [h]; exact Nat.mul_mod_left _ _
  simp only [linearSample, h1, h2, interpolate]
  simpa using roundQuotient_mul tie (pcmRead f j) ho

end Sys2Proof.Machine
end

