-- ==== Sys2Proof/Laws/State.lean ====
section
/-! SUPPORT. One lemma per field for each operation on the state, so that no proof unfolds a record update. -/

namespace Sys2Proof.Machine

variable (rq : Request) (rs : Response) (bits : BitVec 3) (s : State)

@[simp] theorem emit_phase : (emit rq rs s).phase = .idle := rfl
@[simp] theorem emit_req : (emit rq rs s).req = none := rfl
@[simp] theorem emit_build : (emit rq rs s).build = s.build := rfl
@[simp] theorem emit_host : (emit rq rs s).host = s.host := rfl
@[simp] theorem emit_record : (emit rq rs s).record = s.record ++ [.answered rq rs] := rfl

@[simp] theorem raiseError_phase : (raiseError rq bits s).phase = .idle := rfl
@[simp] theorem raiseError_req : (raiseError rq bits s).req = none := rfl
@[simp] theorem raiseError_build : (raiseError rq bits s).build = s.build := rfl
@[simp] theorem raiseError_host : (raiseError rq bits s).host = s.host := rfl
@[simp] theorem raiseError_record :
    (raiseError rq bits s).record = s.record ++ [.answered rq (errorResponse bits)] := rfl

@[simp] theorem dropEvent_phase : (dropEvent s).phase = s.phase := rfl
@[simp] theorem dropEvent_req : (dropEvent s).req = s.req := rfl
@[simp] theorem dropEvent_build : (dropEvent s).build = s.build := rfl
@[simp] theorem dropEvent_host : (dropEvent s).host = s.host.tail := rfl
@[simp] theorem dropEvent_record : (dropEvent s).record = s.record := rfl

@[simp] theorem performReset_phase : (performReset s).phase = .idle := rfl
@[simp] theorem performReset_req : (performReset s).req = none := rfl
@[simp] theorem performReset_build : (performReset s).build = s.build := rfl
@[simp] theorem performReset_host : (performReset s).host = s.host.tail := rfl
@[simp] theorem performReset_record : (performReset s).record = s.record ++ [.reset] := rfl

/-- `takePass` is the state itself, or the state with the host's pass made. -/
theorem takePass_cases : takePass s = s ∨ takePass s = dropEvent s := by
  unfold takePass; split <;> simp

@[simp] theorem takePass_phase : (takePass s).phase = s.phase := by
  rcases takePass_cases s with h | h <;> simp [h]
@[simp] theorem takePass_req : (takePass s).req = s.req := by
  rcases takePass_cases s with h | h <;> simp [h]
@[simp] theorem takePass_build : (takePass s).build = s.build := by
  rcases takePass_cases s with h | h <;> simp [h]
@[simp] theorem takePass_record : (takePass s).record = s.record := by
  rcases takePass_cases s with h | h <;> simp [h]

@[simp] theorem withFetchWord_phase (nbits w : Nat) : (s.withFetchWord nbits w).phase = .busy := rfl
@[simp] theorem withFetchWord_req (nbits w : Nat) :
    (s.withFetchWord nbits w).req = tableWordRequest s.build nbits w := rfl
@[simp] theorem withFetchWord_build (nbits w : Nat) : (s.withFetchWord nbits w).build = s.build := rfl
@[simp] theorem withFetchWord_host (nbits w : Nat) :
    (s.withFetchWord nbits w).host = .pass :: s.host := rfl
@[simp] theorem withFetchWord_record (nbits w : Nat) : (s.withFetchWord nbits w).record = s.record := rfl

end Sys2Proof.Machine
end

