-- ==== Sys2Proof/Laws/Ops.lean ====
section
/-! SUPPORT. What each shared operation can do, once: refusals, completing an instruction, accepting a request, an
idle step, a step. -/

namespace Sys2Proof.Machine

/-- When nothing is refused (R16, R32, R80, R198). -/
theorem barred_eq_none {b : Config.Build} {i : Instr} :
    barred b i = none ↔
      acceptable b i.operands ∧ (errMask b i = noError → producible b (outLen b i)) := by
  unfold barred acceptable producible Operands.WF
  constructor
  · intro h
    split at h
    · cases h
    · rename_i h0
      split at h
      · cases h
      · rename_i h1
        split at h
        · cases h
        · rename_i h2
          split at h
          · cases h
          · rename_i h3
            refine ⟨⟨⟨Decidable.not_not.1 h0, Decidable.not_not.1 h1⟩, Nat.le_of_not_lt h2⟩, fun he => ?_⟩
            have h4 : ¬(b.maxOutBytes < outLen b i ∨ 2 ^ b.lenW ≤ outLen b i) := fun h => h3 ⟨he, h⟩
            omega
  · rintro ⟨⟨⟨h0, h1⟩, h2⟩, h3⟩
    rw [if_neg (fun h => h h0), if_neg (fun h => h h1), if_neg (Nat.not_lt.2 h2), if_neg]
    rintro ⟨he, h⟩
    have := h3 he
    omega

/-- The output frame of an operation that ends in `Ok`. -/
def frameOf (b : Config.Build) : Instr → Frame
  | .decode q => decodeFrame q.frame
  | .encode q => encodeFrame b.expRule q.frame
  | .resample q => resampleFrame b q.frame (rateHz b q.inRate) (rateHz b q.outRate)
  | .t2e q => t2eFrame b q.frame
  | .e2t q => e2tFrame b q.frame
  | .reserved5 _ => []
  | .reserved6 _ => []
  | .reserved7 _ => []

/-- Every meaning is `complete` with the instruction's own frame. -/
theorem exec_eq_complete (i : Instr) (s : State) : exec i s = complete i (fun _ => frameOf s.build i) s := by
  cases i <;> rfl

/-- The response `Exec` gives a request that is not refused (R77). -/
def responseOf (b : Config.Build) (i : Instr) : Response :=
  if errMask b i = noError then okResponse (frameOf b i) else errorResponse (errMask b i)

/-- The two outcomes of an operation: refused by name, or its response is emitted. -/
theorem exec_cases (i : Instr) (s : State) :
    (∃ r, barred s.build i = some r ∧ exec i s = .refused r) ∨
      (barred s.build i = none ∧ exec i s = .next (emit (encodeRequest i) (responseOf s.build i) s)) := by
  rw [exec_eq_complete]
  unfold complete responseOf
  cases h : barred s.build i with
  | some r => exact .inl ⟨r, rfl, rfl⟩
  | none =>
    refine .inr ⟨rfl, ?_⟩
    by_cases he : errMask s.build i = noError <;> simp [he, raiseError]

/-- What a next state of an operation is. -/
theorem exec_next {i : Instr} {s t : State} (h : exec i s = .next t) :
    barred s.build i = none ∧ t = emit (encodeRequest i) (responseOf s.build i) s := by
  rcases exec_cases i s with ⟨r, _, hr⟩ | ⟨hb, hn⟩
  · rw [hr] at h; cases h
  · rw [hn] at h; cases h; exact ⟨hb, rfl⟩

/-- An operation never faults (R189). -/
theorem exec_ne_fault (i : Instr) (s : State) (f : Fault) : exec i s ≠ .fault f := by
  rcases exec_cases i s with ⟨r, _, hr⟩ | ⟨_, hn⟩ <;> simp_all

/-- An operation within the bounds whose checks set a bit ends in that error (R187). -/
theorem exec_of_error {i : Instr} {s : State} {m : BitVec 3} (ha : acceptable s.build i.operands)
    (he : errMask s.build i = m) (hm : m ≠ noError) : answersError i s m := by
  rcases exec_cases i s with ⟨r, hr, _⟩ | ⟨_, hx⟩
  · have := barred_eq_none.2 ⟨ha, fun h => absurd h (he ▸ hm)⟩
    rw [hr] at this; cases this
  · unfold answersError answersWith
    rw [hx]; simp [responseOf, he, hm, emit, errorResponse]

/-- An operation within the bounds whose checks set no bit ends in `Ok` with its own frame (R77). -/
theorem exec_of_ok {i : Instr} {s : State} (ha : acceptable s.build i.operands) (he : errMask s.build i = noError)
    (hp : producible s.build (outLen s.build i)) : answersOk i s (frameOf s.build i) := by
  rcases exec_cases i s with ⟨r, hr, _⟩ | ⟨_, hx⟩
  · have := barred_eq_none.2 ⟨ha, fun _ => hp⟩
    rw [hr] at this; cases this
  · unfold answersOk answersWith
    rw [hx]; simp [responseOf, he, emit, okResponse]; rfl

/-- When an operation ends in `Ok`, and with which frame (R16, R77). -/
theorem answersOk_iff {i : Instr} {s : State} {y : Frame} :
    answersOk i s y ↔ barred s.build i = none ∧ errMask s.build i = noError ∧ y = frameOf s.build i := by
  constructor
  · intro h
    unfold answersOk answersWith at h
    obtain ⟨hb, ht⟩ := exec_next h
    have hr : (responseOf s.build i).err = 0b000 ∧ (responseOf s.build i).out = y := by
      have := congrArg State.record ht
      simp only [emit_record, List.append_cancel_left_eq, List.cons.injEq, Obs.answered.injEq, and_true,
        true_and] at this
      rw [← this]; exact ⟨rfl, rfl⟩
    refine ⟨hb, ?_, ?_⟩
    · unfold responseOf at hr
      split at hr
      · assumption
      · exact hr.1
    · unfold responseOf at hr
      split at hr
      · exact hr.2.symm
      · rename_i hn; exact absurd hr.1 hn
  · rintro ⟨hb, he, rfl⟩
    obtain ⟨ha, hp⟩ := barred_eq_none.1 hb
    exact exec_of_ok ha he (hp he)

/-- The newest answer after an operation. -/
theorem lastAnswer_exec (i : Instr) (s : State) :
    lastAnswer (exec i s) = if barred s.build i = none then some (responseOf s.build i) else none := by
  rcases exec_cases i s with ⟨r, hr, hx⟩ | ⟨hb, hx⟩
  · simp [hx, hr, lastAnswer]
  · simp [hx, hb, lastAnswer]

/-- The output frame has the length the length rule gives (R102, R122, R141, R172). -/
theorem frameOf_length {b : Config.Build} {i : Instr} (h : i.WF b) : (frameOf b i).length = outLen b i := by
  have h : i.operands.inLen = i.operands.frame.length := h.2
  cases i <;> simp only [Instr.operands] at h <;>
    simp [frameOf, outLen, mulawCount, pcmCount, h, t2eFrame, e2tFrame]

/-- The response `Exec` gives fits its request. -/
theorem responseOf_fits {b : Config.Build} {i : Instr} {rq : Request} (hd : decodeRequest b rq = .ok i)
    (hb : barred b i = none) : answerOk b rq (responseOf b i) = true := by
  have hw := (decodeRequest_ok hd).2.1
  unfold answerOk responseOf
  simp only [hd]
  by_cases he : errMask b i = noError
  · have hl := frameOf_length hw
    have h2 := ((barred_eq_none.1 hb).2 he).2
    simp [he, okResponse, hl, h2]
  · simp [he, errorResponse]

theorem handshakeOk_busy {s : State} {rq : Request} (hp : s.phase = .busy) (hq : s.req = some rq) :
    handshakeOk s = true ↔ ∃ i, decodeRequest s.build rq = .ok i ∧ barred s.build i = none := by
  unfold handshakeOk
  simp only [hp, hq]
  cases decodeRequest s.build rq <;> simp

theorem handshakeOk_idle {s : State} (hp : s.phase = .idle) : handshakeOk s = true ↔ s.req = none := by
  unfold handshakeOk
  simp only [hp]
  cases s.req <;> simp

/-- What accepting a request does (R34). -/
theorem accept_next {rq : Request} {s t : State} (h : accept rq s = .next t) :
    ∃ i, decodeRequest s.build rq = .ok i ∧ barred s.build i = none ∧
    t = { s with phase := .busy, req := some rq } := by
  unfold accept at h
  cases hd : decodeRequest s.build rq with
  | error e => simp [hd] at h
  | ok i =>
    cases hb : barred s.build i with
    | some r => simp [hd, hb] at h
    | none => simp [hd, hb] at h; exact ⟨i, rfl, hb, h.symm⟩

theorem accept_of_ok {rq : Request} {i : Instr} {s : State} (hd : decodeRequest s.build rq = .ok i)
    (hb : barred s.build i = none) : accept rq s = .next { s with phase := .busy, req := some rq } := by
  simp [accept, hd, hb]

theorem accept_ne_fault (rq : Request) (s : State) (f : Fault) : accept rq s ≠ .fault f := by
  unfold accept; split <;> try split
  all_goals simp

theorem resetPending_iff {s : State} : resetPending s = true ↔ ∃ rest, s.host = .reset :: rest := by
  unfold resetPending; split <;> simp_all

theorem resetPending_false {s : State} (h : ∀ rest, s.host ≠ .reset :: rest) : resetPending s = false := by
  cases hr : resetPending s with
  | false => rfl
  | true => obtain ⟨rest, hh⟩ := resetPending_iff.1 hr; exact absurd hh (h rest)

/-- Everything a step can do when it gives a next state (R34): a reset, the completion of the held request, the
acceptance of a presented one, or waiting. -/
theorem step_next {s t : State} (h : step s = .next t) :
    (resetPending s = true ∧ t = performReset s) ∨
    (∃ rq i, s.phase = .busy ∧ s.req = some rq ∧ decodeRequest s.build rq = .ok i ∧ barred s.build i = none ∧
      t = emit rq (responseOf s.build i) (takePass s)) ∨
    (∃ rq i, s.phase = .idle ∧ decodeRequest s.build rq = .ok i ∧ barred s.build i = none ∧
      t = { dropEvent s with phase := .busy, req := some rq }) ∨
    (s.phase = .idle ∧ (t = s ∨ t = dropEvent s)) := by
  unfold step at h
  split at h
  · rename_i hr
    cases h; exact .inl ⟨hr, rfl⟩
  · rename_i hr
    split at h
    · rename_i rq hp hq
      split at h
      · rename_i i hd
        obtain ⟨hb, ht⟩ := exec_next h
        have he := (decodeRequest_ok hd).2.2
        refine .inr (.inl ⟨rq, i, hp, hq, hd, by simpa using hb, ?_⟩)
        rw [ht, he]; simp
      · cases h
    · cases h
    · rename_i hp
      unfold idleStep at h
      split at h
      · cases h; exact .inr (.inr (.inr ⟨hp, .inl rfl⟩))
      · cases h; exact .inr (.inr (.inr ⟨hp, .inr rfl⟩))
      · rename_i hh; exact absurd (resetPending_iff.2 ⟨_, hh⟩) (by simp [hr])
      · obtain ⟨i, hd, hb, ht⟩ := accept_next h
        exact .inr (.inr (.inl ⟨_, i, hp, hd, by simpa using hb, ht⟩))

end Sys2Proof.Machine
end

