-- ==== Sys2Proof/Laws/PerInstr.lean ====
section
/-! SUPPORT. A statement per instruction: the request an instruction is carried by has its operation number and its
fields, and decodes to it exactly when it is well formed. -/

namespace Sys2Proof.Laws.RequestForm

/-- The request that carries `i` keeps every field (R68), has the number of the operation map (R70), and in every
build decodes to `i` when it is well formed and to no instruction otherwise (R32, R198). -/
def Statement (i : Instr) : Prop :=
  (encodeRequest i).toOperands = i.operands ∧ (encodeRequest i).op = i.opBits ∧
    ∀ b : Config.Build,
      (i.WF b → decodeRequest b (encodeRequest i) = .ok i) ∧
      (¬ i.operands.FieldsFit b → decodeRequest b (encodeRequest i) = .error .fieldTooWide) ∧
      (i.operands.FieldsFit b → i.operands.inLen ≠ i.operands.frame.length →
        decodeRequest b (encodeRequest i) = .error .lengthMismatch)

/-- One proof for every constructor. -/
theorem holds (i : Instr) : Statement i := by
  refine ⟨rfl, rfl, fun b => ⟨fun h => ?_, fun h => if_pos h, fun h1 h2 => ?_⟩⟩
  · exact decodeRequest_eq_ok.2 ⟨h, (instrOf_opBits i).symm⟩
  · exact (if_neg (not_not.2 h1)).trans (if_pos h2)

theorem decode (q : Operands) : Statement (.decode q) := holds _
theorem encode (q : Operands) : Statement (.encode q) := holds _
theorem resample (q : Operands) : Statement (.resample q) := holds _
theorem t2e (q : Operands) : Statement (.t2e q) := holds _
theorem e2t (q : Operands) : Statement (.e2t q) := holds _
theorem reserved5 (q : Operands) : Statement (.reserved5 q) := holds _
theorem reserved6 (q : Operands) : Statement (.reserved6 q) := holds _
theorem reserved7 (q : Operands) : Statement (.reserved7 q) := holds _

end Sys2Proof.Laws.RequestForm
end

