-- ==== Sys2Proof/Machine/Text.lean ====
section
/-! DEFINITION. The text form of requests and responses (R82) and the names of the operations (R4, R83). No step
reads it; it is how the spec writes a request and its response on a line. -/

namespace Sys2Proof.Machine

/-- The mnemonic (R4, R70); a reserved value has the name opcode_table.json gives it. -/
def mnemonic : Instr → String
  | .decode _ => "DECODE"
  | .encode _ => "ENCODE"
  | .resample _ => "RESAMPLE"
  | .t2e _ => "T2E"
  | .e2t _ => "E2T"
  | .reserved5 _ => "RESERVED_5"
  | .reserved6 _ => "RESERVED_6"
  | .reserved7 _ => "RESERVED_7"

/-- The names accepted for an operation number (R83, 90_conflicts.md C7). -/
def operationNames : List (String × BitVec 3) :=
  [("DECODE", 0), ("decode", 0), ("decodeMulaw", 0),
   ("ENCODE", 1), ("encode", 1), ("encodeMulaw", 1),
   ("RESAMPLE", 2), ("resample", 2),
   ("T2E", 3), ("telephonyToEngine", 3), ("convertPlivoToOpenAI", 3),
   ("E2T", 4), ("engineToTelephony", 4), ("convertOpenAIToPlivo", 4)]

/-- The operation number a name stands for (R83). -/
def operationOfName (name : String) : Option (BitVec 3) :=
  (operationNames.find? fun e => e.1 == name).map Prod.snd

/-- One hexadecimal digit, as the vectors write it. -/
def hexDigit (n : Nat) : String :=
  match n with
  | 0 => "0" | 1 => "1" | 2 => "2" | 3 => "3" | 4 => "4" | 5 => "5" | 6 => "6" | 7 => "7"
  | 8 => "8" | 9 => "9" | 10 => "A" | 11 => "B" | 12 => "C" | 13 => "D" | 14 => "E" | _ => "F"

/-- Two digits for a byte. -/
def hexByte (b : Byte) : String := hexDigit (b.toNat / 16) ++ hexDigit (b.toNat % 16)

/-- A frame: its bytes separated by spaces, or `-` when it is empty (R82). -/
def frameText : Frame → String
  | [] => "-"
  | [b] => hexByte b
  | b :: c :: bs => hexByte b ++ " " ++ frameText (c :: bs)

/-- The two rates, written for RESAMPLE only, in decimal (R82), read as the build reads them (R75). -/
def ratesText (b : Config.Build) : Instr → String
  | .resample q => " " ++ toString (signedRate b q.inRate) ++ " " ++ toString (signedRate b q.outRate)
  | .decode _ => ""
  | .encode _ => ""
  | .t2e _ => ""
  | .e2t _ => ""
  | .reserved5 _ => ""
  | .reserved6 _ => ""
  | .reserved7 _ => ""

/-- A request on a line (R82). -/
def requestText (b : Config.Build) (i : Instr) : String :=
  mnemonic i ++ ratesText b i ++ " : " ++ frameText i.operands.frame

/-- The names of the error bits that are set, joined by `|` (R82, R180). -/
def errorText (err : BitVec 3) : String :=
  String.intercalate "|"
    ((if err &&& errOddLength = noError then [] else ["ODD_LENGTH"]) ++
     (if err &&& errBadRate = noError then [] else ["BAD_RATE"]) ++
     (if err &&& errIllegalOp = noError then [] else ["ILLEGAL_OP"]))

/-- A response on a line (R82). -/
def responseText (rs : Response) : String :=
  if rs.err = noError then "=> OK : " ++ frameText rs.out else "=> ERR " ++ errorText rs.err

end Sys2Proof.Machine
end

