-- ==== Sys2Proof/Tests/Slice0.lean ====
section
/-! SUPPORT. The model's own tests. Expected values are those of spec/95_test_vectors.md (section named) or of the
rule named; the second half shows, for each statement with hypotheses, a state and operands that meet them. -/

namespace Sys2Proof.Tests

open Sys2Proof.Machine

/-- Operands with the rates (as 32-bit patterns) and the frame given, and `in_len` its length. -/
def ops (inHz outHz : Int) (f : Frame) : Operands :=
  ⟨(BitVec.ofInt 32 inHz).toNat, (BitVec.ofInt 32 outHz).toNat, f.length, f⟩

/-- The response to an instruction right after reset. -/
def answer (i : Instr) : Option Response := lastAnswer (exec i State.reset)

/-- `Ok` with this frame (R16). -/
def ok (f : Frame) : Option Response := some ⟨0, f.length, f⟩

/-- `Error` with this mask (R16). -/
def err (m : BitVec 3) : Option Response := some ⟨m, 0, []⟩

/-- The state after reset with another build. -/
def built (b : Config.Build) : State := { State.reset with build := b }

/-- An IDLE core whose host does `h` next. -/
def idleWith (h : List HostEvent) : State := { State.reset with host := h }

/-- A BUSY core that holds `rq` and whose host does `h` next. -/
def holding (rq : Request) (h : List HostEvent) : State :=
  { State.reset with phase := .busy, req := some rq, host := h }

/-- `DECODE : FF` as a request. -/
def decodeFF : Request := encodeRequest (.decode (ops 0 0 [0xFF]))

/-- A build with other widths (R7): RATE_W = 16, LEN_W = 2. -/
def narrow : Config.Build := { defaultBuild with rateW := 16, lenW := 2 }

/-! ### Well-formedness: one ill-formed term for each check -/

theorem test_wf_rejects_wrong_length : ¬ (⟨0, 0, 1, []⟩ : Operands).WF defaultBuild := by decide
theorem test_wf_rejects_wide_in_rate : ¬ (⟨2 ^ 32, 0, 0, []⟩ : Operands).WF defaultBuild := by decide
theorem test_wf_rejects_wide_out_rate : ¬ (⟨0, 2 ^ 32, 0, []⟩ : Operands).WF defaultBuild := by decide
theorem test_wf_rejects_wide_in_len : ¬ (⟨0, 0, 4, [0, 0, 0, 0]⟩ : Operands).WF narrow := by decide
theorem test_decode_rejects_wrong_length :
    (decodeRequest defaultBuild { op := 0, inRate := 0, outRate := 0, inLen := 2, frame := [0xFF] }).toOption =
        none := by decide
theorem test_decode_rejects_short_header : (decodeBytes defaultBuild (List.replicate 12 0)).toOption = none :=
    by decide
theorem test_decode_rejects_padding : (decodeBytes defaultBuild (List.replicate 12 0 ++ [0x08])).toOption = none :=
    by decide
theorem test_decode_rejects_missing_frame :
    (decodeBytes defaultBuild ([0, 0, 0, 0, 0, 0, 0, 0, 0x08] ++ List.replicate 4 0)).toOption = none := by decide

/-! ### Words written out from the operation map (R70, R78) and from the fields of R68 -/

theorem test_word_decode : decodeTableWord 8 0b000 = some (.decode ⟨0, 0, 0, []⟩) := by decide
theorem test_word_encode : decodeTableWord 8 0b001 = some (.encode ⟨0, 0, 0, []⟩) := by decide
theorem test_word_resample : decodeTableWord 8 0b010 = some (.resample ⟨0, 0, 0, []⟩) := by decide
theorem test_word_t2e : decodeTableWord 8 0b011 = some (.t2e ⟨0, 0, 0, []⟩) := by decide
theorem test_word_e2t : decodeTableWord 8 0b100 = some (.e2t ⟨0, 0, 0, []⟩) := by decide
theorem test_word_reserved5 : decodeTableWord 8 0b101 = some (.reserved5 ⟨0, 0, 0, []⟩) := by decide
theorem test_word_reserved6 : decodeTableWord 8 0b110 = some (.reserved6 ⟨0, 0, 0, []⟩) := by decide
theorem test_word_reserved7 : decodeTableWord 8 0b111 = some (.reserved7 ⟨0, 0, 0, []⟩) := by decide

/-- All fields at once: `op` 010, `in_rate` 0x00001F40, `out_rate` 0x00005DC0, `in_len` 2, IN 08 01. -/
theorem test_word_with_every_field :
    decodeTableWord 120 (0b010 + 2 ^ 3 * 0x1F40 + 2 ^ 35 * 0x5DC0 + 2 ^ 67 * 2 + 2 ^ 104 * 0x0108) =
      some (.resample (ops 8000 24000 [0x08, 0x01])) := by decide

/-- A negative rate keeps its pattern: `in_rate` field 0xFFFFE0C0 is -8000 (95, section 5). -/
theorem test_negative_rate_field :
    (ops (-8000) 0 []).inRate = 0xFFFFE0C0 ∧ signedRate defaultBuild 0xFFFFE0C0 = -8000 := by decide

/-- Other widths (R7, R68): RATE_W = 16 and LEN_W = 2 give 37 bits of control fields, so 5 bytes; `in_rate` 0x1F40,
`out_rate` 0xFFFF, `in_len` 2. -/
theorem test_word_of_another_width :
    headerBytes narrow = 5 ∧
    decodeWord narrow 56 (0b010 + 2 ^ 3 * 0x1F40 + 2 ^ 19 * 0xFFFF + 2 ^ 35 * 2 + 2 ^ 40 * 0x0108) =
      some (.resample ⟨8000, 0xFFFF, 2, [0x08, 0x01]⟩) := by decide

/-- Other widths, in `Exec` (R75, R80): 0xFFFF is the rate -1 in 16 bits and 65535 in 32, and an output of 4 bytes
does not fit a length of 2 bits. -/
theorem test_other_widths_in_exec :
    errMask narrow (.resample ⟨8000, 0xFFFF, 2, [8, 1]⟩) = 0b010 ∧
    errMask defaultBuild (.resample ⟨8000, 0xFFFF, 2, [8, 1]⟩) = 0b000 ∧
    barred narrow (.decode ⟨0, 0, 1, [0]⟩) = none ∧
    barred narrow (.decode ⟨0, 0, 2, [0, 0]⟩) = some .outputTooLong := by
  decide
theorem test_wide_field_is_not_accepted :
    step (idleWith [.present { decodeFF with inRate := 2 ^ 32 }]) = .refused .fieldTooWide := rfl

/-- The next step runs the word that was placed (R170 on an empty frame). -/
theorem test_fetched_word_runs_next :
    lastAnswer (step (State.reset.withFetchWord 8 0b011)) = ok [] := by decide

/-! ### DECODE (95, section 2) -/

theorem test_decode_frame :
    answer (.decode (ops 0 (-5) [0xFF, 0x7F, 0xF0, 0x80, 0x00])) =
      ok [0x08, 0x01, 0xF8, 0xFE, 0x80, 0x01, 0x00, 0x7E, 0x00, 0x82] := by decide
theorem test_decode_samples :
    [0xFE, 0xE0, 0xDF, 0xCE, 0xBF, 0xAF, 0xA0, 0x9F, 0x8F, 0x70, 0x6F, 0x4E, 0x31, 0x20, 0x0F].map decodeSample =
      [272, 504, 528, 1120, 2112, 4224, 8064, 8448, 16896, -384, -264, -1120, -3904, -8064, -16896] := by decide

/-! ### ENCODE (95, section 3) -/

theorem test_encode_frame :
    answer (.encode (ops 7 7 [0x00, 0x80, 0xFF, 0xFF, 0x7B, 0x00, 0x7C, 0x00])) = ok [0x20, 0x7F, 0xF0, 0xEF] := by
  decide
theorem test_encode_odd_length : answer (.encode (ops 0 0 [0, 0, 1])) = err 0b001 := by decide

/-- The lines around every threshold, under BITSPAN. -/
theorem test_encode_samples :
    [0, 3, 4, 123, 124, 379, 380, 891, 892, 1915, 1916, 3963, 3964, 7803, 7804, 8059, 8060, 32767, -32768].map
        (encodeSample .bitspan) =
      [0xFF, 0xFF, 0xFE, 0xF0, 0xEF, 0xE0, 0xDF, 0xD0, 0xCF, 0xC0, 0xBF, 0xB0, 0xAF, 0xA1, 0xA0, 0xA0, 0xA0, 0xA0,
       0x20] := by decide

/-- The same lines where NUMERIC_LE differs, and two where it does not. -/
theorem test_encode_samples_numericLe :
    [379, 891, 1915, 3963, 8059, 8064, -8064, -32768, 380, 7804].map (encodeSample .numericLe) =
      [0xD0, 0xC0, 0xB0, 0xA0, 0x90, 0x90, 0x10, 0x10, 0xDF, 0xA0] := by decide

/-! ### RESAMPLE (95, section 5) -/

theorem test_resample_worked_example :
    answer (.resample (ops 8000 24000 [0x00, 0x00, 0xFF, 0x7F])) =
      ok [0x00, 0x00, 0xAA, 0x2A, 0x55, 0x55, 0xFF, 0x7F, 0xFF, 0x7F, 0xFF, 0x7F] := by decide
theorem test_resample_both_errors : answer (.resample (ops (-1) 0 [0])) = err 0b011 := by decide

/-- `44100 48000` on `[0, 1000, 0, -1000]`: sample 2 is exactly 162.5. -/
theorem test_resample_tie_rules :
    ([Config.RoundTie.halfUp, .halfAway, .halfEven].map fun t =>
        (List.range 4).map (linearSample t [0x00, 0x00, 0xE8, 0x03, 0x00, 0x00, 0x18, 0xFC] 44100 48000)) =
      [[0, 919, 163, -756], [0, 919, 163, -756], [0, 919, 162, -756]] := by decide

/-- `1 2` on `[0, -3]`: -1.5 goes to -1 half up and to -2 otherwise. -/
theorem test_resample_negative_tie :
    ([Config.RoundTie.halfUp, .halfAway, .halfEven].map fun t =>
        (List.range 4).map (linearSample t [0x00, 0x00, 0xFD, 0xFF] 1 2)) =
      [[0, -1, -3, -3], [0, -2, -3, -3], [0, -2, -3, -3]] := by decide

/-! ### T2E and E2T (95, section 6) -/

theorem test_t2e_frame :
    answer (.t2e (ops 0 0 [0x80, 0x00, 0xCE])) =
      ok [0x00, 0x7E, 0x00, 0x2A, 0x00, 0xD6, 0x00, 0x82, 0x75, 0xAD, 0xEB, 0xD8, 0x60, 0x04, 0x60, 0x04, 0x60,
          0x04] := by decide
theorem test_t2e_empty : answer (.t2e (ops 0 0 [])) = ok [] := by decide
theorem test_e2t_frame :
    answer (.e2t (ops 0 0 [0xE8, 0x03, 0, 0, 0, 0, 0x00, 0x80, 0, 0, 0, 0, 0x7B, 0x1E])) = ok [0xCE, 0x20] :=
        by decide
theorem test_e2t_odd_length : answer (.e2t (ops 0 0 [0, 0, 0])) = err 0b001 := by decide

/-! ### Reserved numbers and bounds (95, section 7; R80) -/

theorem test_reserved5 : answer (.reserved5 (ops 0 0 [])) = err 0b100 := by decide
theorem test_reserved6 : answer (.reserved6 (ops 0 0 [0])) = err 0b100 := by decide
theorem test_reserved7 : answer (.reserved7 (ops (-1) 0 [0])) = err 0b100 := by decide

/-- A build of 2 bytes out answers a frame of one byte and refuses a frame of two (R80). -/
theorem test_output_bound :
    barred { defaultBuild with maxOutBytes := 2 } (.decode (ops 0 0 [0xFF])) = none ∧
    barred { defaultBuild with maxOutBytes := 2 } (.decode (ops 0 0 [0xFF, 0x7F])) = some .outputTooLong := by decide

/-- A build of 1 byte in refuses a frame of two (R7, R80). -/
theorem test_input_bound :
    barred { defaultBuild with maxInBytes := 1 } (.decode (ops 0 0 [0xFF, 0x7F])) = some .inputTooLong := by decide

/-- An output longer than its length field is refused: 2^31 - 1 output samples for each input sample (R80). -/
theorem test_length_field_bound :
    barred defaultBuild (.resample (ops 1 (2 ^ 31 - 1) [0, 0])) = none ∧
    barred defaultBuild (.resample (ops 1 (2 ^ 31 - 1) [0, 0, 0, 0])) = some .outputTooLong := by decide

/-! ### The handshake (95, program 4) -/

theorem test_accept_holds_the_request :
    step (idleWith [.present decodeFF, .reset]) = .next (holding decodeFF [.reset]) := rfl
theorem test_reset_drops_the_request :
    step (holding decodeFF [.reset]) = .next { State.reset with record := [.reset] } := rfl
theorem test_complete_answers :
    lastAnswer (step (holding decodeFF [])) = ok [0x08, 0x01] := by decide
theorem test_wrong_length_is_not_accepted :
    step (idleWith [.present { decodeFF with inLen := 2 }]) = .refused .lengthMismatch := rfl

/-! ### The text form and the names (R82, R83) -/

theorem test_request_text :
    requestText defaultBuild (.resample (ops 8000 (-5) [0x00, 0xFF])) = "RESAMPLE 8000 -5 : 00 FF" := by decide
theorem test_response_text :
    responseText ⟨0b011, 0, []⟩ = "=> ERR ODD_LENGTH|BAD_RATE" ∧ responseText ⟨0, 0, []⟩ = "=> OK : -" := by decide
theorem test_names : operationOfName "convertOpenAIToPlivo" = some 4 ∧ operationOfName "base64ToBuffer" = none := by
  decide

/-! ### Witnesses: states and operands that meet the hypotheses of each statement -/

theorem witness_resetDropsTheRequestAndEmitsNothing :
    (holding decodeFF [.reset]).host = .reset :: [] ∧ (idleWith [.reset, .pass]).host = .reset :: [.pass] :=
  ⟨rfl, rfl⟩

theorem decodeFF_decodes : decodeRequest defaultBuild decodeFF = .ok (.decode (ops 0 0 [0xFF])) := rfl

theorem witness_idleCoreAcceptsAPresentedRequest :
    (idleWith [.present decodeFF]).phase = .idle ∧ (idleWith [.present decodeFF]).host = .present decodeFF :: [] ∧
    decodeRequest defaultBuild decodeFF = .ok (.decode (ops 0 0 [0xFF])) ∧
    acceptable defaultBuild decodeFF.toOperands ∧
    producible defaultBuild (outLen defaultBuild (.decode (ops 0 0 [0xFF]))) :=
  ⟨rfl, rfl, rfl, ⟨⟨by decide, rfl⟩, by decide⟩, by decide, by decide⟩

/-- The same with a request that ends in an error, whose output length is not asked for. -/
theorem witness_idleCoreAcceptsAnErroneousRequest :
    decodeRequest defaultBuild (encodeRequest (.encode (ops 0 0 [0]))) = .ok (.encode (ops 0 0 [0])) ∧
    acceptable defaultBuild (ops 0 0 [0]) ∧ errMask defaultBuild (.encode (ops 0 0 [0])) ≠ 0b000 :=
  ⟨rfl, ⟨⟨by decide, rfl⟩, by decide⟩, by decide⟩

theorem witness_idleCoreWaitsForTheHost :
    (idleWith []).phase = .idle ∧ (idleWith []).host = [] ∧ (idleWith [.pass]).host = .pass :: [] :=
  ⟨rfl, rfl, rfl⟩

theorem witness_stepRunsTheHeldRequest :
    (holding decodeFF [.pass]).phase = .busy ∧ (holding decodeFF [.pass]).req = some decodeFF ∧
    decodeRequest defaultBuild decodeFF = .ok (.decode (ops 0 0 [0xFF])) ∧
    (holding decodeFF [.pass]).host = .pass :: [] ∧
    (∀ rest, (holding decodeFF []).host ≠ .reset :: rest) ∧ (∀ rest, (holding decodeFF []).host ≠ .pass :: rest) :=
  ⟨rfl, rfl, rfl, rfl, (fun _ h => by cases h), (fun _ h => by cases h)⟩

theorem witness_stepRunsTheFetchedWord :
    State.reset.build = defaultBuild ∧ decodeTableWord 8 0b011 = some (.t2e ⟨0, 0, 0, []⟩) ∧
    decodeWord (built narrow).build 8 0b011 = some (.t2e ⟨0, 0, 0, []⟩) :=
  ⟨rfl, test_word_t2e, by decide⟩

theorem witness_busyCoreLeavesAPresentedRequest :
    (holding decodeFF [.present decodeFF]).phase = .busy ∧
    (holding decodeFF [.present decodeFF]).host = .present decodeFF :: [] ∧
    ∃ t, step (holding decodeFF [.present decodeFF]) = .next t :=
  ⟨rfl, rfl, _, rfl⟩

/-- For the statements about a good BUSY core, and about every step from a good state. -/
theorem witness_goodBusyState :
    (holding decodeFF []).Inv ∧ (holding decodeFF []).phase = .busy ∧
    (∀ rest, (holding decodeFF []).host ≠ .reset :: rest) ∧ ∃ t, step (holding decodeFF []) = .next t :=
  ⟨⟨by decide, rfl⟩, rfl, (fun _ h => by cases h), _, rfl⟩

/-- A good state whose record is not empty: the invariant reads the record too. -/
theorem witness_goodStateWithRecord :
    State.Inv { State.reset with record := [.answered decodeFF ⟨0, 2, [0x08, 0x01]⟩, .reset] } ∧
    ¬ State.Inv { State.reset with record := [.answered decodeFF ⟨0, 3, [0x08, 0x01]⟩] } := by
  constructor
  · exact ⟨rfl, by decide⟩
  · exact fun h => absurd h.2 (by decide)

theorem witness_transactionIsAcceptThenComplete :
    (idleWith [.present decodeFF]).phase = .idle ∧ (idleWith [.present decodeFF]).req = none ∧
    (idleWith [.present decodeFF]).host = .present decodeFF :: [] ∧
    (∀ r, ([] : List HostEvent) ≠ .reset :: r) ∧ (∀ r, ([] : List HostEvent) ≠ .pass :: r) ∧
    decodeRequest defaultBuild decodeFF = .ok (.decode (ops 0 0 [0xFF])) ∧
    acceptable defaultBuild decodeFF.toOperands ∧
    producible defaultBuild (outLen defaultBuild (.decode (ops 0 0 [0xFF]))) :=
  ⟨rfl, rfl, rfl, (fun _ h => by cases h), (fun _ h => by cases h), rfl, ⟨⟨by decide, rfl⟩, by decide⟩, by decide,
      by decide⟩

/-- For the statements about an operation that completes, and two states of one build. -/
theorem witness_operationCompletes :
    (∃ t, exec (.decode (ops 0 0 [0xFF])) State.reset = .next t) ∧
    State.reset.build = (holding decodeFF [.reset]).build :=
  ⟨⟨_, rfl⟩, rfl⟩

theorem witness_oddLengthEndsInAnError :
    acceptable defaultBuild (ops 0 1 [0]) ∧ (ops 0 1 [0]).inLen % 2 = 1 ∧
    signedRate defaultBuild (ops 0 1 [0]).inRate ≤ 0 ∧
    ¬ (signedRate defaultBuild (ops 1 1 [0]).inRate ≤ 0 ∨ signedRate defaultBuild (ops 1 1 [0]).outRate ≤ 0) :=
  ⟨⟨⟨by decide, rfl⟩, by decide⟩, by decide, by decide, by decide⟩

/-- The rates 0, -1 and the most negative one, and the empty frame (92_eei_decisions.md D30). -/
theorem witness_badRateEndsInAnError :
    acceptable defaultBuild (ops 0 1 []) ∧ signedRate defaultBuild (ops 0 1 []).inRate ≤ 0 ∧
    signedRate defaultBuild (ops 1 (-1) []).outRate ≤ 0 ∧
    signedRate defaultBuild (ops (-2 ^ 31) 1 [0]).inRate ≤ 0 ∧ (ops (-2 ^ 31) 1 [0]).inLen % 2 = 1 :=
  ⟨⟨⟨by decide, rfl⟩, by decide⟩, by decide, by decide, by decide, by decide⟩

theorem witness_reservedNumbersEndInIllegalOp : acceptable defaultBuild (ops 0 0 []) :=
  ⟨⟨by decide, rfl⟩, by decide⟩

theorem witness_decodeOfEncodeIsTheInstruction :
    Instr.WF defaultBuild (.resample (ops (-8000) 24000 [1, 2, 3])) ∧
    (decodeBytes defaultBuild (List.replicate 13 0xFF)).toOption = none ∧
    decodeBytes defaultBuild (encode defaultBuild (.t2e (ops 5 6 [7]))) = .ok (.t2e (ops 5 6 [7])) :=
  ⟨by decide, by decide, rfl⟩

theorem witness_storedSampleReadsBack :
    ([1, 2] : Frame).length = 2 * 1 ∧ pcmRead ([1, 2] ++ pcmStore (-32768) ++ [9]) 1 = -32768 ∧
    pcmRead ([1, 2] ++ pcmStore 32767 ++ []) 1 = 32767 := by decide

theorem witness_decodeAnswersWithTheSamples :
    acceptable defaultBuild (ops 0 0 [0xFF]) ∧ producible defaultBuild (2 * (ops 0 0 [0xFF]).inLen) ∧
    (ops 0 0 [0xFF]).frame[0]? = some 0xFF :=
  ⟨⟨⟨by decide, rfl⟩, by decide⟩, ⟨by decide, by decide⟩, rfl⟩

theorem witness_encodeAnswersWithTheCodes :
    acceptable defaultBuild (ops 0 0 [0, 0]) ∧ (ops 0 0 [0, 0]).inLen % 2 = 0 ∧
    producible defaultBuild ((ops 0 0 [0, 0]).inLen / 2) ∧ 0 < (ops 0 0 [0, 0]).inLen / 2 :=
  ⟨⟨⟨by decide, rfl⟩, by decide⟩, by decide, ⟨by decide, by decide⟩, by decide⟩

/-- The fields at both ends of their ranges, both signs (R110, 95 section 2). -/
theorem witness_decodedSampleByFields :
    decodeSample (fold (BitVec.ofNat 8 (packFields false 0 0))) = 264 ∧
    decodeSample (fold (BitVec.ofNat 8 (packFields true 0 15))) = -384 ∧
    decodeSample (fold (BitVec.ofNat 8 (packFields false 1 0))) = 264 ∧
    decodeSample (fold (BitVec.ofNat 8 (packFields true 7 15))) = -32256 := by decide

/-- The biased magnitude at both ends, and exponents on both sides of a threshold, in both readings (R125). -/
theorem witness_encoderExponentIsTheLeastThatFits :
    biasedMagnitude 0 = 132 ∧ biasedMagnitude 8059 = 8191 ∧ biasedMagnitude 8060 = 8191 ∧
    [132, 255, 256, 511, 512, 4095, 4096, 8191].map (exponentOf .bitspan) = [0, 0, 1, 1, 2, 4, 5, 5] ∧
    [132, 255, 256, 510, 511, 4080, 4081, 8191].map (exponentOf .numericLe) = [0, 0, 1, 1, 2, 4, 5, 6] := by decide

/-- The bounds of R131 where rows meet: the code on each side, both signs. -/
theorem witness_encoderThresholds :
    [0, 3, 4, 123, 124, 3963, 3964, 7804, 32767, -32768, -124, -123].map (encodeSample .bitspan) =
      ([(false, 0, 0), (false, 0, 0), (false, 0, 1), (false, 0, 15), (false, 1, 0), (false, 4, 15), (false, 5, 0),
        (false, 5, 15), (false, 5, 15), (true, 5, 15), (true, 1, 0), (true, 0, 15)].map fun c =>
          fold (BitVec.ofNat 8 (packFields c.1 c.2.1 c.2.2))) := by decide

/-- The image at its edge: 7803 is the last sample below the saturated code (R130). -/
theorem witness_encoderImage :
    exponentField (fold 0xA0) = 5 ∧ encodeSample .bitspan 7803 = 0xA1 ∧ encodeSample .bitspan 7804 = 0xA0 ∧
    encodeSample .bitspan (-7804) = 0x20 := by decide

theorem witness_encoderIsMonotoneAndOdd :
    ((0 : Int) ≤ 0 ∧ (0 : Int) ≤ 8060) ∧ encodeSample .bitspan (-32767) = encodeSample .bitspan 32767 ^^^ 0x80 ∧
    encodeSample .bitspan (-1) = encodeSample .bitspan 1 ^^^ 0x80 := by decide

/-- The values where the clauses of R133 meet (95, section 4). -/
theorem witness_roundTripErrorTable :
    [0, 3, 123, 124, 379, 1000, 3964, 7803, 7804, 8064, 16000, 32767, -1, -1000, -32768].map
        (fun x => decodeSample (encodeSample .bitspan x)) =
      [264, 264, 384, 264, 504, 1120, 4224, 7808, 8064, 8064, 8064, 8064, -264, -1120, -8064] := by decide

/-- The ends of the sets of R125 where the readings differ, and their neighbours, where they agree. -/
theorem witness_exponentRulesDifferExactlyThere :
    ([378, 379, 380, 888, 889, 891, 892, 1908, 1909, 1915, 1916, 3948, 3949, 3963, 3964, 8028, 8029].map fun x =>
        decide (encodeSample .numericLe x = encodeSample .bitspan x)) =
      [true, false, true, true, false, false, true, true, false, false, true, true, false, false, true, true,
       false] := by decide

theorem witness_resampleAnswersWithTheInterpolation :
    acceptable defaultBuild (ops 1 2 [1, 0]) ∧ (ops 1 2 [1, 0]).inLen % 2 = 0 ∧
    0 < signedRate defaultBuild (ops 1 2 [1, 0]).inRate ∧
    0 < signedRate defaultBuild (ops 1 (2 ^ 31 - 1) []).outRate ∧ producible defaultBuild (2 * 2) :=
  ⟨⟨⟨by decide, rfl⟩, by decide⟩, by decide, by decide, by decide, by decide, by decide⟩

/-- Ties of both signs, and a value next to one (95, section 5). -/
theorem witness_roundingIsToNearest :
    (2 * (-3 : Int)) % (2 * (2 : Nat)) = (2 : Nat) ∧ (2 * (5 : Int)) % (2 * (2 : Nat)) = (2 : Nat) ∧
    (2 * (4 : Int)) % (2 * (3 : Nat)) ≠ (3 : Nat) ∧
    [Config.RoundTie.halfUp, .halfAway, .halfEven].map (fun t => roundQuotient t (-3) 2) = [-1, -2, -2] ∧
    [Config.RoundTie.halfUp, .halfAway, .halfEven].map (fun t => roundQuotient t 5 2) = [3, 3, 2] := by decide

/-- For the statements about frames and rates: a frame of two samples, its range, an index, whole factors. -/
theorem witness_resampledFrames :
    (∀ k, k < ([0, 0, 100, 0] : Frame).length / 2 →
      0 ≤ sample ([0, 0, 100, 0] : Frame) k ∧ sample ([0, 0, 100, 0] : Frame) k ≤ 100) ∧
    5 < outputSamples 2 8000 24000 ∧ 0 < outputSamples 1 1 1 ∧ ([0, 0, 100, 0] : Frame).length % 2 = 0 ∧
    0 < ([0, 0, 100, 0] : Frame).length / 2 / 2 ∧ 1 < ([0, 0, 100, 0] : Frame).length / 2 := by decide

/-- The last sample and the one before it, up-sampled by 3 (R154). -/
theorem witness_wholeUpSampling :
    (List.range 6).map (sample (resampleFrame defaultBuild [0, 0, 100, 0] 8000 24000)) =
      [0, 33, 67, 100, 100, 100] := by decide

theorem witness_t2eAnswersWithTheClosedForm :
    acceptable defaultBuild (ops 0 0 [0xFF, 0x7F]) ∧ producible defaultBuild (6 * (ops 0 0 [0xFF, 0x7F]).inLen) ∧
    (ops 0 0 [0xFF, 0x7F]).frame[0]? = some 0xFF ∧ (ops 0 0 [0xFF, 0x7F]).frame[0 + 1]? = some 0x7F ∧
    1 + 1 = (ops 0 0 [0xFF, 0x7F]).inLen :=
  ⟨⟨⟨by decide, rfl⟩, by decide⟩, ⟨by decide, by decide⟩, rfl, rfl, by decide⟩

theorem witness_e2tAnswersWithEveryThirdSample :
    acceptable defaultBuild (ops 0 0 [0, 0, 1, 0, 2, 0]) ∧ (ops 0 0 [0, 0, 1, 0, 2, 0]).inLen % 2 = 0 ∧
    producible defaultBuild ((ops 0 0 [0, 0, 1, 0, 2, 0]).inLen / 2 / 3) ∧
    0 < (ops 0 0 [0, 0, 1, 0, 2, 0]).inLen / 2 / 3 :=
  ⟨⟨⟨by decide, rfl⟩, by decide⟩, by decide, ⟨by decide, by decide⟩, by decide⟩

theorem witness_pipelinesEqualTwoRequests :
    16 ≤ defaultBuild.rateW ∧ acceptable defaultBuild (ops 0 0 [0xFF]) ∧
    2 * (ops 0 0 [0xFF]).inLen ≤ defaultBuild.maxInBytes ∧
    producible defaultBuild (2 * ((ops 0 0 [0, 0, 1, 0, 2, 0]).inLen / 2 / 3)) :=
  ⟨by decide, ⟨⟨by decide, rfl⟩, by decide⟩, by decide, by decide, by decide⟩

/-- The rates at both ends of their fields, in the default width and in another one. -/
theorem witness_rateFieldsAreTwosComplement :
    1 ≤ defaultBuild.rateW ∧ 2 ^ 31 < 2 ^ defaultBuild.rateW ∧
    [0, 1, 2 ^ 31 - 1, 2 ^ 31, 2 ^ 32 - 1].map (signedRate defaultBuild) = [0, 1, 2 ^ 31 - 1, -2 ^ 31, -1] ∧
    [1, 2 ^ 15 - 1, 2 ^ 15].map (signedRate narrow) = [1, 32767, -32768] := by decide

/-- Rate fields that differ and fit, one of them a negative rate. -/
theorem witness_rateFieldsAreIgnored :
    (ops (-1) 0 [0]).inRate < 2 ^ State.reset.build.rateW ∧ (ops (-1) 0 [0]).outRate < 2 ^ State.reset.build.rateW ∧
    5 < 2 ^ State.reset.build.rateW := by decide

theorem witness_reachableErrorMasks : 1 ≤ narrow.lenW ∧ (0b011 : BitVec 3).toNat ≤ 4 := by decide

/-- Each way of being refused, and a request at none of them, in the default build and in another one. -/
theorem witness_operationIsRefusedExactly :
    barred defaultBuild (.t2e ⟨2 ^ 32, 0, 0, []⟩) = some .fieldTooWide ∧
    barred defaultBuild (.t2e ⟨0, 0, 1, []⟩) = some .lengthMismatch ∧
    barred { defaultBuild with maxInBytes := 0 } (.t2e ⟨0, 0, 1, [0]⟩) = some .inputTooLong ∧
    barred narrow (.t2e ⟨0, 0, 1, [0]⟩) = some .outputTooLong ∧
    barred defaultBuild (.t2e ⟨2 ^ 32 - 1, 0, 1, [0]⟩) = none := by decide

/-- A build with other parameters runs too (R7): NUMERIC_LE on 379 (95, section 3). -/
theorem test_other_build :
    lastAnswer (exec (.encode (ops 0 0 [0x7B, 0x01])) (built { defaultBuild with expRule := .numericLe })) =
      ok [0xD0] := by decide

end Sys2Proof.Tests
end

section
/-! PROOFS. The family of 00_scope.md: a well-formed instruction comes back out of its bytes, what an answer depends
on, and when an operation is refused. -/

namespace Sys2Proof

/-- The first `headerBytes` bytes of a request hold its control fields (log entry 1). -/
theorem leNat_take_bytesOfRequest (b : Config.Build) {rq : Request} (h : rq.FieldsFit b) :
    leNat ((bytesOfRequest b rq).take (headerBytes b)) = headerOf b rq := by
  rw [bytesOfRequest, List.take_left' (leBytes_length _ _), leNat_leBytes, Nat.mod_eq_of_lt (headerOf_lt b h)]

/-- The bytes after the control fields are `IN` (log entry 1). -/
theorem drop_bytesOfRequest (b : Config.Build) (rq : Request) :
    (bytesOfRequest b rq).drop (headerBytes b) = rq.frame := by
  rw [bytesOfRequest, List.drop_left' (leBytes_length _ _)]

theorem headerBytes_le_length_bytesOfRequest (b : Config.Build) (rq : Request) :
    headerBytes b ≤ (bytesOfRequest b rq).length := by
  simp [bytesOfRequest]

/-- A request whose fields fit their widths comes back out of its bytes; `in_len` need not be right for this. -/
theorem requestOfBytes_bytesOfRequest (b : Config.Build) {rq : Request} (h : rq.FieldsFit b) :
    requestOfBytes b (bytesOfRequest b rq) = .ok rq := by
  have hlen := headerBytes_le_length_bytesOfRequest b rq
  have hpad := headerPadding_headerOf b h
  simp only [requestOfBytes, Nat.not_lt.2 hlen, if_false, leNat_take_bytesOfRequest b h, drop_bytesOfRequest, hpad,
    if_true, requestOfHeader_headerOf b h]

/-- Settles O24: the request comes back out of the bytes, and the instruction out of the request. -/
theorem decodeOfEncodeIsTheInstruction : Obligations.DecodeOfEncodeIsTheInstruction := by
  intro b i hwf
  have hbytes : requestOfBytes b (encode b i) = .ok (encodeRequest i) :=
    requestOfBytes_bytesOfRequest b (rq := encodeRequest i) hwf.1
  have hrequest : decodeRequest b (encodeRequest i) = .ok i :=
    decodeRequest_eq_ok.2 ⟨hwf, (instrOf_opBits i).symm⟩
  rw [decodeBytes, hbytes]
  exact hrequest

end Sys2Proof

namespace Sys2Proof.Machine

/-- An operation is refused for the reason `barred` names, and for no other. -/
theorem exec_eq_refused_iff {i : Instr} {s : State} {r : Refusal} :
    exec i s = .refused r ↔ barred s.build i = some r := by
  rcases exec_cases i s with ⟨r', hbarred, hexec⟩ | ⟨hbarred, hexec⟩ <;> simp [hbarred, hexec]

/-- An operation is refused when `barred` names a reason. -/
theorem exists_exec_eq_refused_iff {i : Instr} {s : State} :
    (∃ r, exec i s = .refused r) ↔ barred s.build i ≠ none := by
  simp only [exec_eq_refused_iff, Option.ne_none_iff_exists']

/-- An operation completes when `barred` names no reason. -/
theorem exists_exec_eq_next_iff {i : Instr} {s : State} :
    (∃ t, exec i s = .next t) ↔ barred s.build i = none := by
  rcases exec_cases i s with ⟨r, hbarred, hexec⟩ | ⟨hbarred, hexec⟩ <;> simp [hbarred, hexec]

/-- A request the implementation does not accept is malformed or above MAX_IN_BYTES (R7, R198). -/
theorem not_acceptable_iff {b : Config.Build} {q : Operands} :
    ¬ acceptable b q ↔ (¬ q.FieldsFit b ∨ q.inLen ≠ q.frame.length) ∨ b.maxInBytes < q.inLen := by
  rw [acceptable, Operands.WF, not_and_or, not_and_or, Nat.not_le]

/-- An output length no response of the build has (R80). -/
theorem not_producible_iff {b : Config.Build} {n : Nat} :
    ¬ producible b n ↔ b.maxOutBytes < n ∨ 2 ^ b.lenW ≤ n := by
  rw [producible, not_and_or, Nat.not_le, Nat.not_lt]

/-- When something is refused: `barred_eq_none` the other way round. -/
theorem barred_ne_none {b : Config.Build} {i : Instr} :
    barred b i ≠ none ↔ ¬ acceptable b i.operands ∨ (errMask b i = noError ∧ ¬ producible b (outLen b i)) := by
  rw [Ne, barred_eq_none, not_and_or, Classical.not_imp]

/-- Settles O16: the refusal is `barred` and the response `responseOf`, and both take the build and nothing else of
the state. -/
theorem answerDependsOnTheRequestAlone : Obligations.AnswerDependsOnTheRequestAlone := by
  intro i s u hbuild
  constructor
  · rw [lastAnswer_exec, lastAnswer_exec, hbuild]
  · intro r
    rw [exec_eq_refused_iff, exec_eq_refused_iff, hbuild]

/-- Settles O23: an operation is refused exactly when `barred` names a reason, and it names one exactly for a
request that is not acceptable or whose output is not producible. -/
theorem operationIsRefusedExactlyWhenMalformedOrBeyondTheBounds :
    Obligations.OperationIsRefusedExactlyWhenMalformedOrBeyondTheBounds := by
  intro i s q malformed beyond
  have hbarred : barred s.build i ≠ none ↔ malformed ∨ beyond := by
    rw [barred_ne_none, not_acceptable_iff, not_producible_iff, or_assoc]
    exact Iff.rfl
  refine ⟨?_, ?_, exec_ne_fault i s⟩
  · rw [exists_exec_eq_refused_iff, hbarred]
  · rw [exists_exec_eq_next_iff, ← hbarred, not_not]

end Sys2Proof.Machine
end

section
/-! PROOFS. The family of 10_state.md: the invariant and how a step keeps it, ACCEPT and COMPLETE on a given plan of
the host, and the frame of every operation. -/

namespace Sys2Proof.Machine

/-! ### Keeping the invariant -/

/-- An IDLE state with nothing held has the invariant when its record fits (R28). -/
theorem inv_of_idle {s : State} (hphase : s.phase = .idle) (hreq : s.req = none)
    (hrecord : s.record.all (obsOk s.build) = true) : s.Inv :=
  ⟨(handshakeOk_idle hphase).2 hreq, hrecord⟩

/-- A BUSY state that holds a request the model does not refuse has the invariant when its record fits (R29). -/
theorem inv_of_busy {s : State} {rq : Request} {i : Instr} (hphase : s.phase = .busy) (hreq : s.req = some rq)
    (hdecode : decodeRequest s.build rq = .ok i) (hbarred : barred s.build i = none)
    (hrecord : s.record.all (obsOk s.build) = true) : s.Inv :=
  ⟨(handshakeOk_busy hphase hreq).2 ⟨i, hdecode, hbarred⟩, hrecord⟩

/-- The invariant does not read the host's plan. -/
theorem inv_dropEvent {s : State} (h : s.Inv) : (dropEvent s).Inv := h

/-- RESET keeps a record that fits (R200). -/
theorem inv_performReset {s : State} (hrecord : s.record.all (obsOk s.build) = true) : (performReset s).Inv :=
  inv_of_idle rfl rfl (by simp [hrecord, obsOk])

/-- A response that fits its request keeps a record that fits (R34). -/
theorem inv_emit {s : State} {rq : Request} {rs : Response} (hrecord : s.record.all (obsOk s.build) = true)
    (hanswer : answerOk s.build rq rs = true) : (emit rq rs s).Inv :=
  inv_of_idle rfl rfl (by simp [hrecord, hanswer, obsOk])

/-- Settles O8, by the four things a step can do. COMPLETE adds a response that fits its request
(`responseOf_fits`), and ACCEPT holds only a request that decodes and is not barred. -/
theorem everyStepKeepsTheInvariant : Obligations.EveryStepKeepsTheInvariant := by
  intro s t hinv hstep
  have hrecord : s.record.all (obsOk s.build) = true := hinv.2
  rcases step_next hstep with ⟨-, rfl⟩ | ⟨rq, i, -, -, hdecode, hbarred, rfl⟩ | ⟨rq, i, -, hdecode, hbarred, rfl⟩ |
    ⟨-, rfl | rfl⟩
  · exact inv_performReset hrecord
  · exact inv_emit (by simpa using hrecord) (by simpa using responseOf_fits hdecode hbarred)
  · exact inv_of_busy rfl rfl hdecode hbarred hrecord
  · exact hinv
  · exact inv_dropEvent hinv

/-- Settles O9: after reset the core is IDLE, holds nothing and has an empty record (R31). -/
theorem invariantHoldsAtReset : Obligations.InvariantHoldsAtReset :=
  inv_of_idle rfl rfl rfl

/-- Settles O1: both are fields of `State.reset`. -/
theorem resetStateIsIdleAndHoldsNothing : Obligations.ResetStateIsIdleAndHoldsNothing :=
  ⟨rfl, rfl⟩

/-! ### What every step leaves unchanged -/

/-- Settles O13: none of the four things a step can do touches the build. -/
theorem noStepChangesTheBuild : Obligations.NoStepChangesTheBuild := by
  intro s t hstep
  rcases step_next hstep with ⟨-, rfl⟩ | ⟨rq, i, -, -, -, -, rfl⟩ | ⟨rq, i, -, -, -, rfl⟩ | ⟨-, rfl | rfl⟩
  · exact performReset_build s
  · rw [emit_build, takePass_build]
  · exact dropEvent_build s
  · rfl
  · exact dropEvent_build s

/-- Settles O14: RESET and COMPLETE add one entry, ACCEPT and waiting none. -/
theorem recordOnlyGrows : Obligations.RecordOnlyGrows := by
  intro s t hstep
  rcases step_next hstep with ⟨-, rfl⟩ | ⟨rq, i, -, -, -, -, rfl⟩ | ⟨rq, i, -, -, -, rfl⟩ | ⟨-, rfl | rfl⟩
  · exact .inr ⟨.reset, performReset_record s⟩
  · exact .inr ⟨.answered rq (responseOf s.build i), by rw [emit_record, takePass_record]⟩
  · exact .inl (dropEvent_record s)
  · exact .inl rfl
  · exact .inl (dropEvent_record s)

/-! ### The frame of every operation -/

/-- An operation that is not barred emits its response (R34, R77). -/
theorem exec_of_not_barred {i : Instr} {s : State} (h : barred s.build i = none) :
    exec i s = .next (emit (encodeRequest i) (responseOf s.build i) s) := by
  rcases exec_cases i s with ⟨r, hr, -⟩ | ⟨-, hexec⟩
  · rw [h] at hr
    cases hr
  · exact hexec

/-- Settles O15: an operation that completes emits its response and does nothing else. -/
theorem operationsChangeNothingButTheAnswer : Obligations.OperationsChangeNothingButTheAnswer := by
  intro i s t hexec
  obtain ⟨-, rfl⟩ := exec_next hexec
  exact ⟨emit_phase .., emit_req .., emit_build .., emit_host .., responseOf s.build i, emit_record ..⟩

/-- Settles O17: of what an operation leaves behind, the next one reads the build alone, and that is unchanged. -/
theorem nothingLatchesBetweenOperations : Obligations.NothingLatchesBetweenOperations := by
  intro i j s t hexec
  obtain ⟨-, -, hbuild, -⟩ := operationsChangeNothingButTheAnswer i s t hexec
  rw [lastAnswer_exec, lastAnswer_exec, hbuild]

/-! ### A step on a given plan of the host -/

/-- Making the host's next move leaves the rest of its plan. -/
theorem dropEvent_of_host {s : State} {e : HostEvent} {rest : List HostEvent} (h : s.host = e :: rest) :
    dropEvent s = { s with host := rest } := by
  simp [dropEvent, h]

/-- A pass of the host is used up (log entry 12). -/
theorem takePass_of_pass {s : State} {rest : List HostEvent} (h : s.host = .pass :: rest) :
    takePass s = { s with host := rest } := by
  rw [← dropEvent_of_host h]
  simp [takePass, h]

/-- Any other move of the host stays to be made (log entry 12). -/
theorem takePass_of_ne_pass {s : State} (h : ∀ rest, s.host ≠ .pass :: rest) : takePass s = s := by
  unfold takePass
  split
  · rename_i rest hhost
    exact absurd hhost (h rest)
  · rfl

/-- COMPLETE: a BUSY core that is not reset runs the instruction of its held request (R34, R209). -/
theorem step_of_busy {s : State} {rq : Request} {i : Instr} (hreset : ∀ rest, s.host ≠ .reset :: rest)
    (hphase : s.phase = .busy) (hreq : s.req = some rq) (hdecode : decodeRequest s.build rq = .ok i) :
    step s = exec i (takePass s) := by
  simp [step, resetPending_false hreset, hphase, hreq, hdecode]

/-- ACCEPT: an IDLE core takes the request the host presents (R34). -/
theorem step_of_present {s : State} {rq : Request} {rest : List HostEvent} (hphase : s.phase = .idle)
    (hhost : s.host = .present rq :: rest) : step s = accept rq { s with host := rest } := by
  have hreset : resetPending s = false := resetPending_false (by simp [hhost])
  simp [step, hreset, hphase, idleStep, hhost, dropEvent_of_host hhost]

/-- A request that decodes is not barred when its fields are acceptable and its output, if it has one, producible. -/
theorem barred_of_decodeRequest {b : Config.Build} {rq : Request} {i : Instr} (hdecode : decodeRequest b rq = .ok i)
    (haccept : acceptable b rq.toOperands) (hproduce : errMask b i = noError → producible b (outLen b i)) :
    barred b i = none := by
  obtain ⟨-, rfl⟩ := decodeRequest_eq_ok.1 hdecode
  exact barred_eq_none.2 ⟨by rwa [instrOf_operands], hproduce⟩

/-- Settles O5: `step_of_busy`, with the host's move as `takePass` leaves it. -/
theorem stepRunsTheHeldRequest : Obligations.StepRunsTheHeldRequest := by
  intro s rq i hphase hreq hdecode
  constructor
  · intro rest hhost
    rw [step_of_busy (by simp [hhost]) hphase hreq hdecode, takePass_of_pass hhost]
  · intro hreset hpass
    rw [step_of_busy hreset hphase hreq hdecode, takePass_of_ne_pass hpass]

/-- Settles O3: the request is not barred, so ACCEPT holds it. -/
theorem idleCoreAcceptsAPresentedRequest : Obligations.IdleCoreAcceptsAPresentedRequest := by
  intro s rq i rest hphase hhost hdecode haccept hproduce
  have hbarred : barred s.build i = none := barred_of_decodeRequest hdecode haccept hproduce
  rw [step_of_present hphase hhost]
  exact accept_of_ok hdecode hbarred

/-- Settles O7: in BUSY, with a request presented, the step is COMPLETE, and `takePass` leaves the plan alone. -/
theorem busyCoreLeavesAPresentedRequest : Obligations.BusyCoreLeavesAPresentedRequest := by
  intro s t rq rest hphase hhost hstep
  have hplan : takePass s = s := takePass_of_ne_pass (by simp [hhost])
  rcases step_next hstep with ⟨hreset, -⟩ | ⟨held, i, -, -, -, -, rfl⟩ | ⟨_, _, hidle, -⟩ | ⟨hidle, -⟩
  · rw [resetPending_false (by simp [hhost])] at hreset
    cases hreset
  · rw [hplan, emit_host]
    exact ⟨hhost, emit_phase .., emit_req ..⟩
  · rw [hphase] at hidle
    cases hidle
  · rw [hphase] at hidle
    cases hidle

/-- COMPLETE, when the host neither resets nor passes: the held request, which is not barred, gets its response. -/
theorem step_eq_emit {s : State} {rq : Request} {i : Instr} (hreset : ∀ rest, s.host ≠ .reset :: rest)
    (hpass : ∀ rest, s.host ≠ .pass :: rest) (hphase : s.phase = .busy) (hreq : s.req = some rq)
    (hdecode : decodeRequest s.build rq = .ok i) (hbarred : barred s.build i = none) :
    step s = .next (emit rq (responseOf s.build i) s) := by
  obtain ⟨-, -, hsame⟩ := decodeRequest_ok hdecode
  rw [step_of_busy hreset hphase hreq hdecode, takePass_of_ne_pass hpass, exec_of_not_barred hbarred, hsame]

/-- Settles O12: the first step is ACCEPT (O3), and the second emits a response that fits the request. What that
leaves is the first state, because it too was IDLE and held nothing. -/
theorem transactionIsAcceptThenComplete : Obligations.TransactionIsAcceptThenComplete := by
  intro s rq i rest hphase hreq hhost hreset hpass hdecode haccept hproduce
  have hbarred : barred s.build i = none := barred_of_decodeRequest hdecode haccept hproduce
  refine ⟨_, responseOf s.build i, idleCoreAcceptsAPresentedRequest s rq i rest hphase hhost hdecode haccept hproduce,
    rfl, rfl, responseOf_fits hdecode hbarred, ?_⟩
  refine Eq.trans (step_eq_emit hreset hpass rfl rfl hdecode hbarred) ?_
  rw [emit, hphase, hreq]

end Sys2Proof.Machine

namespace Sys2Proof

/-- A word decodes to an instruction when the request it spells does. -/
theorem decodeWord_eq_some {b : Config.Build} {nbits w : Nat} {i : Instr} (h : decodeWord b nbits w = some i) :
    ∃ rq, tableWordRequest b nbits w = some rq ∧ decodeRequest b rq = .ok i := by
  unfold decodeWord decodeBytes at h
  unfold tableWordRequest
  cases hbytes : requestOfBytes b (tableWordBytes b nbits w) with
  | error e => simp [hbytes] at h
  | ok rq =>
    cases hdecode : decodeRequest b rq with
    | error e => simp [hbytes, hdecode] at h
    | ok j =>
      simp only [hbytes, hdecode, Option.some.injEq] at h
      exact ⟨rq, rfl, h ▸ hdecode⟩

end Sys2Proof

namespace Sys2Proof.Machine

/-- A decoded word placed by `withFetchWord` is the held request that COMPLETE runs, and its pass is used up. -/
theorem step_withFetchWord {s : State} {nbits w : Nat} {i : Instr} (h : decodeWord s.build nbits w = some i) :
    step (s.withFetchWord nbits w) = exec i { s.withFetchWord nbits w with host := s.host } := by
  obtain ⟨rq, hword, hdecode⟩ := decodeWord_eq_some h
  exact (stepRunsTheHeldRequest (s.withFetchWord nbits w) rq i rfl hword hdecode).1 s.host rfl

/-- Settles O6: the second clause is the first at the default parameters. -/
theorem stepRunsTheFetchedWord : Obligations.StepRunsTheFetchedWord := by
  intro s nbits w i
  refine ⟨step_withFetchWord, fun hbuild htable => step_withFetchWord ?_⟩
  rw [hbuild]
  exact htable

end Sys2Proof.Machine
end

section
/-! PROOFS. The family of 20_memory.md: a stored sample reads back from its place. -/

namespace Sys2Proof.Machine

/-- The byte at offset `i` of what `PcmWrite` stores after a frame `f` is byte `i` of the stored pair, whatever
follows (R58). -/
theorem getElem?_append_pcmStore {f g : Frame} {n i : Nat} {s : Int} (hlen : f.length = n) (hi : i < 2) :
    (f ++ pcmStore s ++ g)[n + i]? = (pcmStore s)[i]? := by
  rw [List.append_assoc, List.getElem?_append_right (by omega), hlen, Nat.add_sub_cancel_left]
  exact List.getElem?_append_left hi

/-- A sample stored after the first `k` samples of a frame is sample `k`, whatever follows (R44, R59). -/
theorem pcmRead_append_pcmStore {f g : Frame} {k : Nat} {s : Int} (hlen : f.length = 2 * k)
    (hs : -32768 ≤ s ∧ s ≤ 32767) : pcmRead (f ++ pcmStore s ++ g) k = s :=
  pcmRead_of_bytes hs (getElem?_append_pcmStore (i := 0) hlen (by decide))
    (getElem?_append_pcmStore (i := 1) hlen (by decide))

/-- Settles O27: `pcmRead_append_pcmStore`, and the examples of R59 by evaluation. -/
theorem storedSampleReadsBack : Obligations.StoredSampleReadsBack :=
  ⟨fun _ _ _ _ hlen hlo hhi => pcmRead_append_pcmStore hlen ⟨hlo, hhi⟩, by decide, by decide, by decide, by decide⟩

end Sys2Proof.Machine
end

section
/-! PROOFS. The family of 30_encoding.md: the bytes that decode are the encoding, the rate fields, the reserved
numbers, and the operation map on literal words. -/

namespace Sys2Proof

/-! ### From bytes to a request and back -/

/-- Bytes decode to an instruction when they hold a request that does. -/
theorem decodeBytes_eq_ok {b : Config.Build} {bs : List Byte} {i : Instr} (h : decodeBytes b bs = .ok i) :
    ∃ rq, requestOfBytes b bs = .ok rq ∧ decodeRequest b rq = .ok i := by
  unfold decodeBytes at h
  cases hbytes : requestOfBytes b bs with
  | error e => simp [hbytes] at h
  | ok rq => exact ⟨rq, rfl, by simpa [hbytes] using h⟩

/-- The request that bytes hold: the bytes are long enough, nothing is set above the control fields, and the fields
are those of the header's number (log entry 1). -/
theorem requestOfBytes_eq_ok {b : Config.Build} {bs : List Byte} {rq : Request} (h : requestOfBytes b bs = .ok rq) :
    headerBytes b ≤ bs.length ∧ headerPadding b (leNat (bs.take (headerBytes b))) = 0 ∧
      rq = requestOfHeader b (leNat (bs.take (headerBytes b))) (bs.drop (headerBytes b)) := by
  unfold requestOfBytes at h
  dsimp only at h
  split at h
  · cases h
  · rename_i hlen
    split at h
    · rename_i hpad
      exact ⟨Nat.le_of_not_lt hlen, hpad, (Except.ok.inj h).symm⟩
    · cases h

/-- A list of at least `n` bytes begins with the `n` bytes of the number these hold. -/
theorem leBytes_leNat_take {n : Nat} {bs : List Byte} (h : n ≤ bs.length) :
    leBytes n (leNat (bs.take n)) = bs.take n := by
  have hbytes := leBytes_leNat (bs.take n)
  rwa [List.length_take_of_le h] at hbytes

/-- Bytes that hold a request are the bytes of that request. -/
theorem bytesOfRequest_of_requestOfBytes {b : Config.Build} {bs : List Byte} {rq : Request}
    (h : requestOfBytes b bs = .ok rq) : bytesOfRequest b rq = bs := by
  obtain ⟨hlen, hpad, rfl⟩ := requestOfBytes_eq_ok h
  rw [bytesOfRequest, headerOf_requestOfHeader b hpad, leBytes_leNat_take hlen]
  exact List.take_append_drop (headerBytes b) bs

/-- Settles O25: the instruction's request is the one the bytes hold, and its bytes are those bytes. -/
theorem encodeOfDecodeIsTheBytes : Obligations.EncodeOfDecodeIsTheBytes := by
  intro b bs i h
  obtain ⟨rq, hbytes, hrequest⟩ := decodeBytes_eq_ok h
  obtain ⟨-, hwf, hsame⟩ := decodeRequest_ok hrequest
  refine ⟨?_, hwf⟩
  rw [encode, hsame]
  exact bytesOfRequest_of_requestOfBytes hbytes

end Sys2Proof

namespace Sys2Proof.Machine

/-! ### The rate fields -/

/-- Of the rate fields, acceptance reads only that they fit (R7, R71). -/
theorem acceptable_replaceRates {b : Config.Build} {q : Operands} {inRate outRate : Nat}
    (hqIn : q.inRate < 2 ^ b.rateW) (hqOut : q.outRate < 2 ^ b.rateW) (hIn : inRate < 2 ^ b.rateW)
    (hOut : outRate < 2 ^ b.rateW) :
    acceptable b { q with inRate := inRate, outRate := outRate } ↔ acceptable b q := by
  simp [acceptable, Operands.WF, Operands.FieldsFit, hqIn, hqOut, hIn, hOut]

/-- Two instructions with the same acceptance, checks, output length and output frame get the same answer. -/
theorem lastAnswer_exec_congr {i j : Instr} {s : State}
    (hacceptable : acceptable s.build i.operands ↔ acceptable s.build j.operands)
    (hmask : errMask s.build i = errMask s.build j) (hlen : outLen s.build i = outLen s.build j)
    (hframe : frameOf s.build i = frameOf s.build j) :
    lastAnswer (exec i s) = lastAnswer (exec j s) := by
  have hbarred : barred s.build i = none ↔ barred s.build j = none := by
    rw [barred_eq_none, barred_eq_none, hacceptable, hmask, hlen]
  have hresponse : responseOf s.build i = responseOf s.build j := by
    rw [responseOf, responseOf, hmask, hframe]
  simp only [lastAnswer_exec, hbarred, hresponse]

/-- Settles O18: acceptance reads only that the rates fit, and the checks, the output length and the output frame of
these operations are by definition the same for other rates. -/
theorem rateFieldsAreIgnored : Obligations.RateFieldsAreIgnored := by
  intro q inRate outRate s hqIn hqOut hIn hOut p
  have hacceptable : acceptable s.build p ↔ acceptable s.build q := acceptable_replaceRates hqIn hqOut hIn hOut
  refine ⟨?_, ?_, ?_, ?_, ?_, ?_, ?_⟩ <;> exact lastAnswer_exec_congr hacceptable rfl rfl rfl

/-- `sext_N` of R14 is the signed reading of a bit vector. -/
theorem sext_eq_toInt {w v : Nat} (hw : 1 ≤ w) (hv : v < 2 ^ w) : sext w v = (BitVec.ofNat w v).toInt := by
  have hhalf : 2 ^ (w - 1) + 2 ^ (w - 1) = 2 ^ w := Nat.two_pow_pred_add_two_pow_pred hw
  rw [BitVec.toInt_eq_toNat_cond, BitVec.toNat_ofNat, Nat.mod_eq_of_lt hv, sext]
  have hcond : v < 2 ^ (w - 1) ↔ 2 * v < 2 ^ w := by omega
  simp [hcond]

/-- A pattern stands for a positive number exactly below the top bit and above 0 (R75). -/
theorem sext_pos_iff {w v : Nat} (hv : v < 2 ^ w) : 0 < sext w v ↔ 1 ≤ v ∧ v ≤ 2 ^ (w - 1) - 1 := by
  have hv' : (v : Int) < 2 ^ w := by exact_mod_cast hv
  unfold sext
  split <;> omega

/-- A positive rate in hertz is its own pattern (R75). -/
theorem rateHz_of_pos {b : Config.Build} {r : Nat} (hr : r < 2 ^ b.rateW) (hpos : 0 < signedRate b r) :
    rateHz b r = r := by
  have hbelow : r < 2 ^ (b.rateW - 1) := by
    have := (sext_pos_iff hr).1 hpos
    omega
  simp [rateHz, signedRate, sext, hbelow]

/-- Settles O53: the rate is `sext` of its pattern at the build's width. -/
theorem rateFieldsAreTwosComplement : Obligations.RateFieldsAreTwosComplement :=
  fun _ _ hwidth hr => ⟨sext_eq_toInt hwidth hr, sext_pos_iff hr, rateHz_of_pos hr⟩

/-! ### The operation map -/

/-- Settles O21: the checks set ILLEGAL_OP alone, so an acceptable request ends in that error. -/
theorem reservedNumbersEndInIllegalOp : Obligations.ReservedNumbersEndInIllegalOp :=
  fun _ _ haccept =>
    ⟨exec_of_error haccept (errMask_reserved5 _ _) (by decide),
      exec_of_error haccept (errMask_reserved6 _ _) (by decide),
      exec_of_error haccept (errMask_reserved7 _ _) (by decide)⟩

/-- Settles O26: the words by evaluation of the decoder, and the full request because its bytes are the encoding of a
well-formed instruction (O24). -/
theorem sampleWordsDecodeAsTheTableSays : Obligations.SampleWordsDecodeAsTheTableSays :=
  ⟨by decide, by decide, by decide, by decide, by decide, by decide, by decide, by decide,
    decodeOfEncodeIsTheInstruction defaultBuild (.resample ⟨8000, 24000, 2, [0x34, 0x12]⟩) (by decide)⟩

end Sys2Proof.Machine
end

section
/-! PROOFS. The family of 41_mulaw_decode.md: DECODE on a whole frame, the decoder on the three fields of a byte, its
table of magnitudes, its range and its symmetry. -/

namespace Sys2Proof.Machine

/-- Settles O28: no check applies to DECODE, so it ends in `Ok` with the decoded frame (R102, R107). -/
theorem decodeAnswersWithTheSamples : Obligations.DecodeAnswersWithTheSamples := by
  intro q s haccept hproduce
  have hlen : q.inLen = q.frame.length := haccept.1.2
  refine ⟨decodeFrame q.frame, exec_of_ok haccept (errMask_decode _ _) hproduce, ?_, ?_⟩
  · rw [decodeFrame_length, hlen]
  · exact fun _ _ hbyte => pcmRead_decodeFrame hbyte

/-! ### The fields of a folded byte -/

/-- `S` by comparison (R61). -/
theorem signField_eq (u : Byte) : signField u = decide (128 ≤ u.toNat) := BitVec.msb_eq_decide u

/-- `E` by division (R61). -/
theorem exponentField_eq (u : Byte) : exponentField u = u.toNat / 16 % 8 := by
  simp [exponentField, BitVec.extractLsb'_toNat, Nat.shiftRight_eq_div_pow]

/-- `M` by division (R61). -/
theorem mantissaField_eq (u : Byte) : mantissaField u = u.toNat % 16 := by
  simp [mantissaField, BitVec.extractLsb'_toNat]

theorem exponentField_lt (u : Byte) : exponentField u < 8 := BitVec.isLt _

theorem mantissaField_lt (u : Byte) : mantissaField u < 16 := BitVec.isLt _

/-- The fields of a packed code are the fields it was packed from (R61, R74). -/
theorem fields_packFields (neg : Bool) {e m : Nat} (he : e < 8) (hm : m < 16) :
    signField (BitVec.ofNat 8 (packFields neg e m)) = neg ∧
      exponentField (BitVec.ofNat 8 (packFields neg e m)) = e ∧
      mantissaField (BitVec.ofNat 8 (packFields neg e m)) = m := by
  have hneg : neg.toNat ≤ 1 := Bool.toNat_le neg
  have hcode : (BitVec.ofNat 8 (packFields neg e m)).toNat = 128 * neg.toNat + 16 * e + m := by
    rw [packFields_eq neg he hm, BitVec.toNat_ofNat]
    omega
  rw [signField_eq, exponentField_eq, mantissaField_eq, hcode]
  refine ⟨?_, by omega, by omega⟩
  cases neg
  · exact decide_eq_false (by rw [Bool.toNat_false]; omega)
  · exact decide_eq_true (by rw [Bool.toNat_true]; omega)

/-! ### The value of a code -/

/-- The magnitude in closed form (R103). -/
theorem decodeMagnitude_eq (e m : Nat) :
    decodeMagnitude e m = if e = 0 then 8 * m + 264 else (8 * m + 132) * 2 ^ e := by
  simp only [decodeMagnitude, bias, Nat.shiftLeft_eq, Nat.pow_add]
  split
  · subst e
    omega
  · ring

/-- The range of the magnitude (R104). -/
theorem decodeMagnitude_bounds {e m : Nat} (he : e < 8) (hm : m < 16) :
    264 ≤ decodeMagnitude e m ∧ decodeMagnitude e m ≤ 32256 := by
  rw [decodeMagnitude_eq]
  split
  · omega
  · have hlo : 2 ^ 1 ≤ 2 ^ e := Nat.pow_le_pow_right (by decide) (by omega)
    have hhi : 2 ^ e ≤ 2 ^ 7 := Nat.pow_le_pow_right (by decide) (by omega)
    exact ⟨Nat.mul_le_mul (by omega : 132 ≤ 8 * m + 132) hlo, Nat.mul_le_mul (by omega : 8 * m + 132 ≤ 252) hhi⟩

/-- The magnitude of a wire byte, from the fields of its folded byte (R101). -/
def byteMagnitude (b : Byte) : Nat := decodeMagnitude (exponentField (fold b)) (mantissaField (fold b))

theorem byteMagnitude_bounds (b : Byte) : 264 ≤ byteMagnitude b ∧ byteMagnitude b ≤ 32256 :=
  decodeMagnitude_bounds (exponentField_lt _) (mantissaField_lt _)

/-- The sample is the magnitude with the sign of the byte: the clamp of R101 changes nothing (R104). -/
theorem decodeSample_eq (b : Byte) :
    decodeSample b = if signField (fold b) then -(byteMagnitude b : Int) else byteMagnitude b := by
  obtain ⟨hlo, hhi⟩ := byteMagnitude_bounds b
  change clamp (if signField (fold b) then -(byteMagnitude b : Int) else byteMagnitude b) pcmMin pcmMax = _
  unfold clamp pcmMin pcmMax
  split <;> omega

/-- Settles O29: the fields come back out of the packed code, and R103 gives their magnitude. -/
theorem decodedSampleByFields : Obligations.DecodedSampleByFields := by
  intro neg e m he hm
  obtain ⟨hsign, hexponent, hmantissa⟩ := fields_packFields neg he hm
  rw [decodeSample_eq, byteMagnitude, fold_fold, hsign, hexponent, hmantissa, decodeMagnitude_eq]
  push_cast
  cases neg
  · exact (one_mul _).symm
  · exact (neg_one_mul _).symm

/-- Settles O30: each row by evaluation of the magnitude at the sixteen mantissas. -/
theorem decoderMagnitudeTable : Obligations.DecoderMagnitudeTable := by
  refine ⟨?_, ?_, ?_, ?_, ?_, ?_, ?_, ?_⟩ <;> decide

/-! ### The symmetry in the sign bit -/

/-- Bit 7 of the wire byte is bit 7 of the folded byte, inverted (R60). -/
theorem fold_xor_signBit (b : Byte) : fold (b ^^^ 0x80) = fold b ^^^ 0x80 := by
  rw [fold, fold, BitVec.not_xor_left]

/-- Flipping bit 7 of a folded byte flips `S` (R61). -/
theorem signField_xor_signBit (u : Byte) : signField (u ^^^ 0x80) = !signField u := by
  simp [signField]

/-- `E` does not reach bit 7 (R61). -/
theorem exponentField_xor_signBit (u : Byte) : exponentField (u ^^^ 0x80) = exponentField u := by
  simp [exponentField, BitVec.extractLsb'_xor]

/-- `M` does not reach bit 7 (R61). -/
theorem mantissaField_xor_signBit (u : Byte) : mantissaField (u ^^^ 0x80) = mantissaField u := by
  simp [mantissaField, BitVec.extractLsb'_xor]

/-- The magnitude does not depend on bit 7 (R105). -/
theorem byteMagnitude_xor_signBit (b : Byte) : byteMagnitude (b ^^^ 0x80) = byteMagnitude b := by
  rw [byteMagnitude, fold_xor_signBit, exponentField_xor_signBit, mantissaField_xor_signBit, byteMagnitude]

/-- Settles O31: the sample is its magnitude with a sign, the magnitude is at least 264, and bit 7 of the wire byte
decides the sign alone. -/
theorem decoderRangeAndOddSymmetry : Obligations.DecoderRangeAndOddSymmetry := by
  intro b
  obtain ⟨hlo, hhi⟩ := byteMagnitude_bounds b
  rw [decodeSample_eq, decodeSample_eq, fold_xor_signBit, signField_xor_signBit, byteMagnitude_xor_signBit]
  cases signField (fold b) <;> simp <;> omega

end Sys2Proof.Machine
end

section
/-! PROOFS. The family of 42_mulaw_encode.md: ENCODE on a whole frame and on an odd length, the search for the
exponent in both readings, the codes of the encoder, and the round trip through the decoder. -/

namespace Sys2Proof.Machine

/-! ### ENCODE as an operation -/

/-- Settles O19: the checks set ODD_LENGTH, and in RESAMPLE also BAD_RATE when a rate is not positive. -/
theorem oddLengthEndsInAnError : Obligations.OddLengthEndsInAnError := by
  intro q s haccept hodd
  refine ⟨exec_of_error haccept ?_ (by decide), exec_of_error haccept ?_ (by decide), exec_of_error haccept ?_ ?_⟩
  · rw [errMask_encode, if_pos hodd]; rfl
  · rw [errMask_e2t, if_pos hodd]; rfl
  · rw [errMask_resample, if_pos hodd]; rfl
  · split <;> decide

/-- Settles O32: no check applies to an even length, so ENCODE ends in `Ok` with the encoded frame (R122). -/
theorem encodeAnswersWithTheCodes : Obligations.EncodeAnswersWithTheCodes := by
  intro q s haccept heven hproduce
  have hlen : q.inLen = q.frame.length := haccept.1.2
  have hmask : errMask s.build (.encode q) = noError := by rw [errMask_encode, if_neg (by omega)]
  refine ⟨encodeFrame s.build.expRule q.frame, exec_of_ok haccept hmask hproduce, ?_, ?_⟩
  · rw [encodeFrame_length, hlen]
  · intro k hk
    exact encodeFrame_getElem? _ (hlen ▸ hk)

/-! ### The search for the exponent -/

/-- Every biased magnitude fits the exponent 6, in both readings (R125). -/
theorem fits_six (rule : Config.ExpRule) {b : Nat} (hb : b ≤ 8191) : fits rule b 6 = true := by
  cases rule
  · rw [fits_bitspan, decide_eq_true_eq]; omega
  · rw [fits_numericLe, decide_eq_true_eq]; omega

/-- The search finds `e` when `e` fits and nothing below it does (R121). -/
theorem exponentOf_eq_of_least {rule : Config.ExpRule} {b e : Nat} (he : e < 8) (hfits : fits rule b e = true)
    (hleast : ∀ k, k < e → fits rule b k = false) : exponentOf rule b = e := by
  have hfind : (List.range 8).find? (fits rule b) = some e :=
    List.find?_range_eq_some.2 ⟨hfits, List.mem_range.2 he, fun k hk => by rw [hleast k hk]; rfl⟩
  rw [exponentOf, hfind, Option.getD_some]

/-- The exponent of a biased magnitude fits, and nothing below it does (R121, R125). -/
theorem exponentOf_isLeast (rule : Config.ExpRule) {b : Nat} (hb : b ≤ 8191) :
    exponentOf rule b ≤ 6 ∧ fits rule b (exponentOf rule b) = true ∧
      ∀ k, k < exponentOf rule b → fits rule b k = false := by
  have hex : ∃ e, fits rule b e = true := ⟨6, fits_six rule hb⟩
  have hle : Nat.find hex ≤ 6 := Nat.find_min' hex (fits_six rule hb)
  have hleast : ∀ k, k < Nat.find hex → fits rule b k = false := fun k hk =>
    Bool.eq_false_of_not_eq_true (Nat.find_min hex hk)
  rw [exponentOf_eq_of_least (by omega) (Nat.find_spec hex) hleast]
  exact ⟨hle, Nat.find_spec hex, hleast⟩

/-- Settles O33: the range of the biased magnitude, and `exponentOf_isLeast`. -/
theorem encoderExponentIsTheLeastThatFits : Obligations.EncoderExponentIsTheLeastThatFits := by
  intro rule mag
  obtain ⟨hlo, hhi⟩ := biasedMagnitude_bounds mag
  obtain ⟨hle, hfits, hleast⟩ := exponentOf_isLeast rule hhi
  exact ⟨hlo, hhi, by omega, hfits, hleast⟩

/-! ### The exponent and the mantissa under BITSPAN -/

/-- One exponent higher doubles the span. -/
theorem two_mul_two_pow_le {k e : Nat} (h : k < e) : 2 * 2 ^ k ≤ 2 ^ e := by
  rw [← Nat.pow_succ']
  exact Nat.pow_le_pow_right (by decide) h

theorem two_pow_add_three (e : Nat) : 2 ^ (e + 3) = 8 * 2 ^ e := Nat.pow_add' 2 e 3

/-- The exponent under BITSPAN puts the leading bit of `b` at position `E + 7` (R125). -/
theorem exponentOf_bitspan_spec {b : Nat} (hlo : 128 ≤ b) (hhi : b ≤ 8191) :
    128 * 2 ^ exponentOf .bitspan b ≤ b ∧ b < 256 * 2 ^ exponentOf .bitspan b := by
  obtain ⟨-, hfits, hleast⟩ := exponentOf_isLeast .bitspan hhi
  rw [fits_bitspan, decide_eq_true_eq] at hfits
  refine ⟨?_, hfits⟩
  cases he : exponentOf .bitspan b with
  | zero => omega
  | succ k =>
    have hk := hleast k (by omega)
    rw [fits_bitspan, decide_eq_false_iff_not] at hk
    omega

/-- That position of the leading bit determines the exponent (R125). -/
theorem exponentOf_bitspan_eq {b e : Nat} (he : e < 8) (hlo : 128 * 2 ^ e ≤ b) (hhi : b < 256 * 2 ^ e) :
    exponentOf .bitspan b = e := by
  refine exponentOf_eq_of_least he ?_ fun k hk => ?_
  · rw [fits_bitspan, decide_eq_true_eq]; exact hhi
  · have := two_mul_two_pow_le hk
    rw [fits_bitspan, decide_eq_false_iff_not]; omega

/-- The bits above the exponent offset are the leading one and then the mantissa (R126). -/
theorem bitspan_code_iff {b e m : Nat} (hlo : 128 ≤ b) (hhi : b ≤ 8191) (he : e < 8) (hm : m < 16) :
    (exponentOf .bitspan b = e ∧ mantissaOf b (exponentOf .bitspan b) = m) ↔
      (16 + m) * 2 ^ (e + 3) ≤ b ∧ b < (17 + m) * 2 ^ (e + 3) := by
  have hspan : ∀ k, (128 * 2 ^ k ≤ b ↔ 16 ≤ b / 2 ^ (k + 3)) ∧ (b < 256 * 2 ^ k ↔ b / 2 ^ (k + 3) < 32) := fun k => by
    rw [Nat.le_div_iff_mul_le (Nat.two_pow_pos _), Nat.div_lt_iff_lt_mul (Nat.two_pow_pos _), two_pow_add_three]
    omega
  rw [← Nat.le_div_iff_mul_le (Nat.two_pow_pos _), ← Nat.div_lt_iff_lt_mul (Nat.two_pow_pos _)]
  constructor
  · rintro ⟨rfl, rfl⟩
    have hspec := exponentOf_bitspan_spec hlo hhi
    rw [(hspan _).1, (hspan _).2] at hspec
    rw [mantissaOf_eq]
    omega
  · rintro ⟨h1, h2⟩
    obtain rfl := exponentOf_bitspan_eq he ((hspan e).1.2 (by omega)) ((hspan e).2.2 (by omega))
    rw [mantissaOf_eq]
    omega

/-! ### The code of a magnitude -/

/-- `E` of a sample's code, from its magnitude (R121). -/
def codeExponent (rule : Config.ExpRule) (mag : Nat) : Nat := exponentOf rule (biasedMagnitude mag)

/-- `M` of a sample's code, from its magnitude (R121). -/
def codeMantissa (rule : Config.ExpRule) (mag : Nat) : Nat :=
  mantissaOf (biasedMagnitude mag) (codeExponent rule mag)

theorem codeExponent_lt (rule : Config.ExpRule) (mag : Nat) : codeExponent rule mag < 8 := by
  have := (exponentOf_isLeast rule (biasedMagnitude_bounds mag).2).1
  unfold codeExponent
  omega

theorem codeMantissa_lt (rule : Config.ExpRule) (mag : Nat) : codeMantissa rule mag < 16 := by
  rw [codeMantissa, mantissaOf_eq]
  exact Nat.mod_lt _ (by decide)

/-- The folded code of a sample holds its sign, exponent and mantissa (R127). -/
theorem fold_encodeSample (rule : Config.ExpRule) (x : Int) :
    fold (encodeSample rule x) =
      BitVec.ofNat 8 (packFields (decide (x < 0)) (codeExponent rule x.natAbs) (codeMantissa rule x.natAbs)) :=
  fold_fold _

/-- The three fields of a sample's folded code (R121). -/
theorem fields_encodeSample (rule : Config.ExpRule) (x : Int) :
    signField (fold (encodeSample rule x)) = decide (x < 0) ∧
      exponentField (fold (encodeSample rule x)) = codeExponent rule x.natAbs ∧
      mantissaField (fold (encodeSample rule x)) = codeMantissa rule x.natAbs := by
  rw [fold_encodeSample]
  exact fields_packFields _ (codeExponent_lt _ _) (codeMantissa_lt _ _)

/-- A folded byte is its three fields (R61, R74). -/
theorem packFields_fields (u : Byte) :
    BitVec.ofNat 8 (packFields (signField u) (exponentField u) (mantissaField u)) = u := by
  have hlt := u.isLt
  apply BitVec.eq_of_toNat_eq
  rw [packFields_eq _ (exponentField_lt u) (mantissaField_lt u), BitVec.toNat_ofNat, signField_eq, exponentField_eq,
    mantissaField_eq]
  by_cases hsign : 128 ≤ u.toNat
  · rw [decide_eq_true hsign, Bool.toNat_true]; omega
  · rw [decide_eq_false hsign, Bool.toNat_false]; omega

/-- A wire byte is the fold of its packed fields (R60, R74). -/
theorem fold_packFields_fields (c : Byte) :
    fold (BitVec.ofNat 8 (packFields (signField (fold c)) (exponentField (fold c)) (mantissaField (fold c)))) = c := by
  rw [packFields_fields, fold_fold]

/-- Two bytes with the same three fields are the same byte (R61). -/
theorem eq_of_fields_eq {u v : Byte} (hsign : signField u = signField v)
    (hexponent : exponentField u = exponentField v) (hmantissa : mantissaField u = mantissaField v) : u = v := by
  rw [← packFields_fields u, hsign, hexponent, hmantissa, packFields_fields]

/-- When a sample's wire byte is the one with given fields. -/
theorem encodeSample_eq_iff {rule : Config.ExpRule} {x : Int} {neg : Bool} {e m : Nat} (he : e < 8) (hm : m < 16) :
    encodeSample rule x = fold (BitVec.ofNat 8 (packFields neg e m)) ↔
      decide (x < 0) = neg ∧ codeExponent rule x.natAbs = e ∧ codeMantissa rule x.natAbs = m := by
  obtain ⟨hsign, hexponent, hmantissa⟩ := fields_encodeSample rule x
  constructor
  · intro h
    rw [h, fold_fold] at hsign hexponent hmantissa
    obtain ⟨hsign', hexponent', hmantissa'⟩ := fields_packFields neg he hm
    exact ⟨hsign.symm.trans hsign', hexponent.symm.trans hexponent', hmantissa.symm.trans hmantissa'⟩
  · rintro ⟨rfl, rfl, rfl⟩
    rfl

/-- Under BITSPAN a code is that of the biased magnitudes of one step (R131). -/
theorem bitspan_codeFields_iff {mag e m : Nat} (he : e < 8) (hm : m < 16) :
    (codeExponent .bitspan mag = e ∧ codeMantissa .bitspan mag = m) ↔
      (16 + m) * 2 ^ (e + 3) ≤ biasedMagnitude mag ∧ biasedMagnitude mag < (17 + m) * 2 ^ (e + 3) := by
  obtain ⟨hlo, hhi⟩ := biasedMagnitude_bounds mag
  exact bitspan_code_iff (by omega) hhi he hm

/-- Settles O34: the step of a code in biased magnitudes is the rule's interval, and the clamp to 8191 extends the
last one to the end of the range. -/
theorem encoderThresholds : Obligations.EncoderThresholds := by
  intro x e m hlo hhi he hm
  rw [encodeSample_eq_iff (by omega) (by omega), eq_self, true_and, bitspan_codeFields_iff (by omega) (by omega)]
  unfold biasedMagnitude bias mulawMax
  interval_cases e <;> split <;> omega

/-! ### The image -/

/-- The exponent of a code is the position of the leading bit of the biased magnitude (R125). -/
theorem codeExponent_bitspan_spec (mag : Nat) :
    128 * 2 ^ codeExponent .bitspan mag ≤ biasedMagnitude mag ∧
      biasedMagnitude mag < 256 * 2 ^ codeExponent .bitspan mag := by
  obtain ⟨hlo, hhi⟩ := biasedMagnitude_bounds mag
  exact exponentOf_bitspan_spec (by omega) hhi

/-- Exponents 6 and 7 are never produced: the clamp keeps the biased magnitude below `256 * 2 ^ 5` (R130). -/
theorem codeExponent_bitspan_le (mag : Nat) : codeExponent .bitspan mag ≤ 5 := by
  have hhi := (biasedMagnitude_bounds mag).2
  have hspec := (codeExponent_bitspan_spec mag).1
  by_contra hlt
  have : 2 ^ 6 ≤ 2 ^ codeExponent .bitspan mag := Nat.pow_le_pow_right (by decide) (by omega)
  omega

/-- From magnitude 7804 on the encoder saturates (R130). -/
theorem bitspan_codeFields_saturated {mag : Nat} (h : 7804 ≤ mag) :
    codeExponent .bitspan mag = 5 ∧ codeMantissa .bitspan mag = 15 := by
  rw [bitspan_codeFields_iff (by decide) (by decide)]
  unfold biasedMagnitude bias mulawMax
  omega

/-- The wire byte of a saturated sample (R130). -/
theorem encodeSample_saturated {x : Int} (h : 7804 ≤ x.natAbs) :
    encodeSample .bitspan x = if x < 0 then 0x20 else 0xA0 := by
  obtain ⟨hexponent, hmantissa⟩ := bitspan_codeFields_saturated h
  rw [← fold_fold (encodeSample _ _), fold_encodeSample, hexponent, hmantissa]
  by_cases hneg : x < 0
  · rw [if_pos hneg, decide_eq_true hneg]; decide
  · rw [if_neg hneg, decide_eq_false hneg]; decide

/-- The largest magnitude of a code in its unsaturated part, `hi(E, M)` of R131. -/
def largestMagnitude (e m : Nat) : Nat := (17 + m) * 2 ^ (e + 3) - 133

/-- It is a magnitude that both signs have (R130, R131). -/
theorem largestMagnitude_bounds {e m : Nat} (he : e ≤ 5) (hm : m < 16) :
    1 ≤ largestMagnitude e m ∧ largestMagnitude e m ≤ 8059 := by
  unfold largestMagnitude
  interval_cases e <;> omega

/-- It has that code (R131). -/
theorem codeFields_largestMagnitude {e m : Nat} (he : e ≤ 5) (hm : m < 16) :
    codeExponent .bitspan (largestMagnitude e m) = e ∧ codeMantissa .bitspan (largestMagnitude e m) = m := by
  rw [bitspan_codeFields_iff (by omega) hm]
  unfold largestMagnitude biasedMagnitude bias mulawMax
  interval_cases e <;> omega

/-- Every magnitude that both signs have is that of a 16-bit sample of the given sign (R64). -/
theorem exists_sample_of_sign (neg : Bool) {mag : Nat} (hpos : 1 ≤ mag) (hle : mag ≤ 32767) :
    ∃ x : Int, -32768 ≤ x ∧ x ≤ 32767 ∧ decide (x < 0) = neg ∧ x.natAbs = mag := by
  cases neg
  · exact ⟨mag, by omega, by omega, decide_eq_false (by omega), Int.natAbs_natCast mag⟩
  · exact ⟨-mag, by omega, by omega, decide_eq_true (by omega), by omega⟩

/-- Settles O35: the largest unsaturated magnitude of a code, with the sign of the code, is a sample that has it. -/
theorem encoderImage : Obligations.EncoderImage := by
  refine ⟨fun x => ?_, fun c hc => ?_, fun x => encodeSample_saturated⟩
  · rw [(fields_encodeSample _ x).2.1]
    exact codeExponent_bitspan_le _
  · have hm := mantissaField_lt (fold c)
    obtain ⟨hpos, hle⟩ := largestMagnitude_bounds hc hm
    obtain ⟨x, hlo, hhi, hsign, hmag⟩ := exists_sample_of_sign (signField (fold c)) hpos (by omega)
    refine ⟨x, hlo, hhi, ?_⟩
    rw [← fold_packFields_fields c, encodeSample_eq_iff (by omega) hm, hmag]
    exact ⟨hsign, codeFields_largestMagnitude hc hm⟩

/-! ### Monotonicity and symmetry -/

theorem biasedMagnitude_mono {a b : Nat} (h : a ≤ b) : biasedMagnitude a ≤ biasedMagnitude b := by
  unfold biasedMagnitude
  omega

/-- The number `16 E + M` does not fall as the magnitude grows: a higher exponent wins, and at the same exponent the
mantissa counts the steps below (R132). -/
theorem bitspan_codeNumber_mono {a b : Nat} (h : a ≤ b) :
    16 * codeExponent .bitspan a + codeMantissa .bitspan a ≤
      16 * codeExponent .bitspan b + codeMantissa .bitspan b := by
  have hbiased := biasedMagnitude_mono h
  have hma := codeMantissa_lt .bitspan a
  rcases lt_trichotomy (codeExponent .bitspan a) (codeExponent .bitspan b) with hexp | hexp | hexp
  · omega
  · obtain ⟨ha, -⟩ := (bitspan_codeFields_iff (codeExponent_lt _ a) hma).1 ⟨rfl, rfl⟩
    obtain ⟨-, hb⟩ := (bitspan_codeFields_iff (codeExponent_lt _ b) (codeMantissa_lt _ b)).1 ⟨rfl, rfl⟩
    rw [hexp] at ha ⊢
    have := Nat.lt_of_mul_lt_mul_right (Nat.lt_of_le_of_lt (Nat.le_trans ha hbiased) hb)
    omega
  · have hpow := two_mul_two_pow_le hexp
    have ha := (codeExponent_bitspan_spec a).1
    have hb := (codeExponent_bitspan_spec b).2
    omega

/-- The number of a folded code, as R132 reads it. -/
theorem fold_encodeSample_toNat (rule : Config.ExpRule) (x : Int) :
    (fold (encodeSample rule x)).toNat =
      128 * (decide (x < 0)).toNat + 16 * codeExponent rule x.natAbs + codeMantissa rule x.natAbs := by
  have he := codeExponent_lt rule x.natAbs
  have hm := codeMantissa_lt rule x.natAbs
  have hneg : (decide (x < 0)).toNat ≤ 1 := Bool.toNat_le _
  rw [fold_encodeSample, packFields_eq _ he hm, BitVec.toNat_ofNat]
  omega

/-- A sample and its negative differ in the sign bit alone, unless both are 0 (R132). -/
theorem encodeSample_neg (rule : Config.ExpRule) {x : Int} (h : x ≠ 0) :
    encodeSample rule (-x) = encodeSample rule x ^^^ 0x80 := by
  obtain ⟨hsign, hexponent, hmantissa⟩ := fields_encodeSample rule x
  obtain ⟨hsign', hexponent', hmantissa'⟩ := fields_encodeSample rule (-x)
  have hflip : decide (-x < 0) = !decide (x < 0) := by
    rw [← decide_not, decide_eq_decide]
    omega
  rw [Int.natAbs_neg] at hexponent' hmantissa'
  rw [← fold_fold (encodeSample rule (-x)), ← fold_fold (encodeSample rule x ^^^ 0x80), fold_xor_signBit]
  refine congrArg fold (eq_of_fields_eq ?_ ?_ ?_)
  · rw [signField_xor_signBit, hsign, hsign', hflip]
  · rw [exponentField_xor_signBit, hexponent, hexponent']
  · rw [mantissaField_xor_signBit, hmantissa, hmantissa']

/-- Settles O36: `bitspan_codeNumber_mono` and `encodeSample_neg`; the values at the ends saturate. -/
theorem encoderIsMonotoneAndOdd : Obligations.EncoderIsMonotoneAndOdd := by
  refine ⟨fun x y hx hxy => ?_, fun x hx _ _ _ => encodeSample_neg _ hx, ?_, ?_, by decide, by decide⟩
  · rw [fold_encodeSample_toNat, fold_encodeSample_toNat, decide_eq_false (by omega), decide_eq_false (by omega),
      Nat.add_assoc, Nat.add_assoc]
    exact Nat.add_le_add_left (bitspan_codeNumber_mono (by omega)) _
  · rw [encodeSample_saturated (by decide), encodeSample_saturated (by decide)]
    decide
  · rw [encodeSample_saturated (by decide)]
    decide

/-! ### The two readings of the exponent rule -/

/-- NUMERIC_LE goes one exponent higher exactly for the end of the span that exceeds the mask `0xFF << E` (R125). -/
theorem exponentOf_numericLe {b : Nat} (hlo : 128 ≤ b) (hhi : b ≤ 8191) :
    exponentOf .numericLe b =
      if b ≤ 255 * 2 ^ exponentOf .bitspan b then exponentOf .bitspan b else exponentOf .bitspan b + 1 := by
  obtain ⟨hbelow, habove⟩ := exponentOf_bitspan_spec hlo hhi
  have hle := (exponentOf_isLeast .bitspan hhi).1
  generalize exponentOf .bitspan b = e at *
  have hless : ∀ k, k < e → fits .numericLe b k = false := fun k hk => by
    have := two_mul_two_pow_le hk
    have := Nat.two_pow_pos k
    rw [fits_numericLe, decide_eq_false_iff_not]
    omega
  split
  · rename_i hmask
    exact exponentOf_eq_of_least (by omega) (by rw [fits_numericLe, decide_eq_true_eq]; exact hmask) hless
  · rename_i hmask
    refine exponentOf_eq_of_least (by omega) ?_ fun k hk => ?_
    · rw [fits_numericLe, decide_eq_true_eq]
      omega
    · rcases Nat.lt_succ_iff_lt_or_eq.1 hk with hk | rfl
      · exact hless k hk
      · rw [fits_numericLe, decide_eq_false_iff_not]
        exact hmask

/-- One exponent above its BITSPAN one, a biased magnitude above the mask has mantissa 15 (R125, R126). -/
theorem mantissaOf_succ_of_mask_lt {b e : Nat} (hmask : 255 * 2 ^ e < b) (hspan : b < 256 * 2 ^ e) :
    mantissaOf b (e + 1) = 15 := by
  have hpow : 2 ^ (e + 1 + 3) = 16 * 2 ^ e := Nat.pow_add' 2 e 4
  have hquot : b / 2 ^ (e + 1 + 3) = 15 := Nat.div_eq_of_lt_le (by omega) (by omega)
  rw [mantissaOf_eq, hquot]

/-- The biased magnitudes of a span that exceed its mask (R125). -/
theorem mask_lt_iff {b e : Nat} (he : e ≤ 5) (hlo : 128 * 2 ^ e ≤ b) (hhi : b < 256 * 2 ^ e) :
    255 * 2 ^ e < b ↔ b = 511 ∨ 1021 ≤ b ∧ b ≤ 1023 ∨ 2041 ≤ b ∧ b ≤ 2047 ∨ 4081 ≤ b ∧ b ≤ 4095 ∨
      8161 ≤ b ∧ b ≤ 8191 := by
  interval_cases e <;> omega

/-- Within the mask the two readings give the same code (R125). -/
theorem codeFields_numericLe_of_le_mask {mag : Nat}
    (hmask : biasedMagnitude mag ≤ 255 * 2 ^ codeExponent .bitspan mag) :
    codeExponent .numericLe mag = codeExponent .bitspan mag ∧
      codeMantissa .numericLe mag = codeMantissa .bitspan mag := by
  obtain ⟨hlo, hhi⟩ := biasedMagnitude_bounds mag
  have hexponent : codeExponent .numericLe mag = codeExponent .bitspan mag :=
    (exponentOf_numericLe (by omega) hhi).trans (if_pos hmask)
  exact ⟨hexponent, by rw [codeMantissa, codeMantissa, hexponent]⟩

/-- Above the mask the numeric reading gives an exponent one higher and the mantissa 15 (R125). -/
theorem codeFields_numericLe_of_mask_lt {mag : Nat}
    (hmask : 255 * 2 ^ codeExponent .bitspan mag < biasedMagnitude mag) :
    codeExponent .numericLe mag = codeExponent .bitspan mag + 1 ∧ codeMantissa .numericLe mag = 15 := by
  obtain ⟨hlo, hhi⟩ := biasedMagnitude_bounds mag
  have hexponent : codeExponent .numericLe mag = codeExponent .bitspan mag + 1 :=
    (exponentOf_numericLe (by omega) hhi).trans (if_neg (Nat.not_le.2 hmask))
  refine ⟨hexponent, ?_⟩
  rw [codeMantissa, hexponent]
  exact mantissaOf_succ_of_mask_lt hmask (codeExponent_bitspan_spec mag).2

/-- Settles O37: the listed biased magnitudes are those above the mask of their span. -/
theorem exponentRulesDifferExactlyThere : Obligations.ExponentRulesDifferExactlyThere := by
  intro x b u v apart
  obtain ⟨hsignU, hexpU, hmanU⟩ : signField u = _ ∧ exponentField u = _ ∧ mantissaField u = _ :=
    fields_encodeSample .numericLe x
  obtain ⟨hsignV, hexpV, hmanV⟩ : signField v = _ ∧ exponentField v = _ ∧ mantissaField v = _ :=
    fields_encodeSample .bitspan x
  obtain ⟨hbelow, habove⟩ := codeExponent_bitspan_spec x.natAbs
  have hmask : 255 * 2 ^ codeExponent .bitspan x.natAbs < b ↔ apart :=
    mask_lt_iff (codeExponent_bitspan_le _) hbelow habove
  by_cases hapart : apart
  · obtain ⟨hexponent, hmantissa⟩ := codeFields_numericLe_of_mask_lt (hmask.2 hapart)
    have hexp : exponentField u = exponentField v + 1 := by rw [hexpU, hexpV, hexponent]
    refine ⟨iff_of_true (fun huv => ?_) hapart, fun _ => ⟨hexp, hmanU.trans hmantissa⟩⟩
    rw [huv] at hexp
    omega
  · obtain ⟨hexponent, hmantissa⟩ := codeFields_numericLe_of_le_mask (Nat.not_lt.1 (mt hmask.1 hapart))
    have huv : u = v := eq_of_fields_eq (hsignU.trans hsignV.symm) (by rw [hexpU, hexpV, hexponent])
      (by rw [hmanU, hmanV, hmantissa])
    exact ⟨iff_of_false (not_not.2 huv) hapart, fun h => absurd h hapart⟩

/-! ### The round trip -/

/-- The magnitude that the decoder gives the code of a magnitude (R133). -/
def roundTripMagnitude (mag : Nat) : Nat :=
  decodeMagnitude (codeExponent .bitspan mag) (codeMantissa .bitspan mag)

/-- The round trip keeps the sign and works on the magnitude (R133). -/
theorem decodeSample_encodeSample (x : Int) :
    decodeSample (encodeSample .bitspan x) =
      if x < 0 then -(roundTripMagnitude x.natAbs : Int) else roundTripMagnitude x.natAbs := by
  obtain ⟨hsign, hexponent, hmantissa⟩ := fields_encodeSample .bitspan x
  rw [decodeSample_eq, byteMagnitude, hsign, hexponent, hmantissa]
  simp only [decide_eq_true_eq, roundTripMagnitude]

/-- A saturated magnitude comes back as 8064 (R133). -/
theorem roundTripMagnitude_saturated {mag : Nat} (h : 7804 ≤ mag) : roundTripMagnitude mag = 8064 := by
  obtain ⟨hexponent, hmantissa⟩ := bitspan_codeFields_saturated h
  rw [roundTripMagnitude, hexponent, hmantissa]
  decide

/-- Below saturation the bias stays in, the bits below the mantissa are lost and half a step is added; exponent 0 gets
the bias twice (R133). -/
theorem roundTripMagnitude_of_span {mag e offset : Nat} (hoffset : offset = if e = 0 then 264 else 132) (he : e ≤ 5)
    (hspan : 128 * 2 ^ e ≤ mag + 132 ∧ mag + 132 < 256 * 2 ^ e) :
    roundTripMagnitude mag + (mag + 132) % (8 * 2 ^ e) = mag + offset + 4 * 2 ^ e := by
  have hpow : 2 ^ e ≤ 2 ^ 5 := Nat.pow_le_pow_right (by decide) he
  have hbiased : biasedMagnitude mag = mag + 132 := by unfold biasedMagnitude bias mulawMax; omega
  have hexponent : codeExponent .bitspan mag = e := by
    rw [codeExponent, hbiased]; exact exponentOf_bitspan_eq (by omega) hspan.1 hspan.2
  rw [roundTripMagnitude, codeMantissa, hexponent, decodeMagnitude_eq, mantissaOf_eq, hbiased, hoffset]
  interval_cases e <;> norm_num <;> omega

/-- So the round trip adds an offset plus or minus half a step (R133). -/
theorem roundTripMagnitude_bounds {mag e offset : Nat} (hoffset : offset = if e = 0 then 264 else 132) (he : e ≤ 5)
    (hspan : 128 * 2 ^ e ≤ mag + 132 ∧ mag + 132 < 256 * 2 ^ e) :
    mag + (offset + 1 - 4 * 2 ^ e) ≤ roundTripMagnitude mag ∧
      roundTripMagnitude mag ≤ mag + (offset + 4 * 2 ^ e) := by
  have htrip := roundTripMagnitude_of_span hoffset he hspan
  have hlost : (mag + 132) % (8 * 2 ^ e) < 8 * 2 ^ e := Nat.mod_lt _ (by positivity)
  have hpow : 2 ^ e ≤ 2 ^ 5 := Nat.pow_le_pow_right (by decide) he
  split at hoffset <;> omega

/-- The table of R133 on magnitudes. -/
theorem roundTripMagnitude_table (mag : Nat) :
    (mag ≤ 123 → mag + 261 ≤ roundTripMagnitude mag ∧ roundTripMagnitude mag ≤ mag + 268) ∧
    (124 ≤ mag ∧ mag ≤ 379 → mag + 125 ≤ roundTripMagnitude mag ∧ roundTripMagnitude mag ≤ mag + 140) ∧
    (380 ≤ mag ∧ mag ≤ 891 → mag + 117 ≤ roundTripMagnitude mag ∧ roundTripMagnitude mag ≤ mag + 148) ∧
    (892 ≤ mag ∧ mag ≤ 1915 → mag + 101 ≤ roundTripMagnitude mag ∧ roundTripMagnitude mag ≤ mag + 164) ∧
    (1916 ≤ mag ∧ mag ≤ 3963 → mag + 69 ≤ roundTripMagnitude mag ∧ roundTripMagnitude mag ≤ mag + 196) ∧
    (3964 ≤ mag ∧ mag ≤ 8059 → mag + 5 ≤ roundTripMagnitude mag ∧ roundTripMagnitude mag ≤ mag + 260) ∧
    (8060 ≤ mag → roundTripMagnitude mag = 8064) :=
  ⟨fun _ => roundTripMagnitude_bounds (e := 0) (offset := 264) rfl (by decide) (by omega),
    fun _ => roundTripMagnitude_bounds (e := 1) (offset := 132) rfl (by decide) (by omega),
    fun _ => roundTripMagnitude_bounds (e := 2) (offset := 132) rfl (by decide) (by omega),
    fun _ => roundTripMagnitude_bounds (e := 3) (offset := 132) rfl (by decide) (by omega),
    fun _ => roundTripMagnitude_bounds (e := 4) (offset := 132) rfl (by decide) (by omega),
    fun _ => roundTripMagnitude_bounds (e := 5) (offset := 132) rfl (by decide) (by omega),
    fun _ => roundTripMagnitude_saturated (by omega)⟩

/-- Settles O38: the table on magnitudes, with the sign that the round trip keeps. Every magnitude below 8060 comes back
larger and the others as 8064, so nothing else is fixed. -/
theorem roundTripErrorTable : Obligations.RoundTripErrorTable := by
  unfold Obligations.RoundTripErrorTable
  simp only [decodeSample_encodeSample, Int.natAbs_neg]
  refine ⟨fun x => ?_, ?_, ?_⟩
  · have htable := roundTripMagnitude_table x.natAbs
    generalize roundTripMagnitude x.natAbs = t at *
    split <;> split <;> omega
  · rw [roundTripMagnitude_saturated (by decide)]; decide
  · decide

/-- Settles O39: the decoded sample of such a code is a fixed point of the round trip, so it is 8064 or -8064, and
both saturate. -/
theorem codecFixedCodes : Obligations.CodecFixedCodes := by
  intro c
  constructor
  · intro hcode
    obtain ⟨hlo, hhi⟩ := decodeSample_bounds c
    obtain ⟨-, -, -, -, -, -, -, -, hfixed⟩ := roundTripErrorTable.1 (decodeSample c)
    rcases (hfixed ⟨hlo, hhi⟩).1 (congrArg decodeSample hcode) with h | h
    · rw [← hcode, h, encodeSample_saturated (by decide)]; decide
    · rw [← hcode, h, encodeSample_saturated (by decide)]; decide
  · rintro (rfl | rfl) <;> decide

end Sys2Proof.Machine
end

section
/-! PROOFS. The family of 43_resample.md: rounding under every tie rule, the reads and the range of the resampler,
its special rates, and RESAMPLE as an operation. -/

namespace Sys2Proof.Machine

/-! ### Rounding -/

/-- A numerator is at a tie exactly when its quotient is half below some whole number (R147). -/
theorem isTie_iff {num : Int} {d : Nat} (hd : 0 < d) :
    isTie num d = true ↔ ∃ q : Int, 2 * num = 2 * (q * d) - d := by
  constructor
  · exact fun h => ⟨roundUp num d, roundUp_of_isTie hd h⟩
  · rintro ⟨q, hq⟩
    have hshift : 2 * num = d + (q - 1) * (2 * d) := by rw [hq]; ring
    rw [isTie, decide_eq_true_eq, hshift, Int.add_mul_emod_self_right, Int.emod_eq_of_lt (by omega) (by omega)]

/-- Ties lie symmetrically about 0. -/
theorem isTie_natAbs {num : Int} {d : Nat} (hd : 0 < d) (h : isTie num d = true) : isTie num.natAbs d = true := by
  obtain ⟨q, hq⟩ := (isTie_iff hd).1 h
  rcases Int.natAbs_eq num with hnum | hnum
  · rwa [← hnum]
  · refine (isTie_iff hd).2 ⟨1 - q, ?_⟩
    rw [Int.sub_mul, Int.one_mul]
    omega

theorem roundUp_nearest (num : Int) {d : Nat} (hd : 0 < d) : (2 * (roundUp num d * d - num)).natAbs ≤ d := by
  have hspec := roundUp_spec num hd
  omega

/-- Every tie rule gives a nearest integer (R147). -/
theorem roundQuotient_nearest (tie : Config.RoundTie) (num : Int) {d : Nat} (hd : 0 < d) :
    (2 * (roundQuotient tie num d * d - num)).natAbs ≤ d := by
  cases tie with
  | halfUp => exact roundUp_nearest num hd
  | halfAway =>
    have hsign : 2 * (num.sign * roundUp num.natAbs d * d - num) =
        num.sign * (2 * (roundUp num.natAbs d * d - num.natAbs)) := by
      linear_combination 2 * Int.sign_mul_natAbs num
    have hle : num.sign.natAbs ≤ 1 := by rw [Int.natAbs_sign]; split <;> decide
    rw [roundQuotient, hsign, Int.natAbs_mul]
    calc num.sign.natAbs * (2 * (roundUp num.natAbs d * d - num.natAbs)).natAbs
        ≤ 1 * d := Nat.mul_le_mul hle (roundUp_nearest _ hd)
      _ = d := Nat.one_mul d
  | halfEven =>
    rw [roundQuotient]
    split
    · rename_i h
      have htie := roundUp_of_isTie hd h.1
      rw [Int.sub_mul, Int.one_mul]
      omega
    · exact roundUp_nearest num hd

/-- Two nearest integers that differ are the two sides of a tie. -/
theorem isTie_of_nearest_lt {num x y : Int} {d : Nat} (hd : 0 < d) (hx : (2 * (x * d - num)).natAbs ≤ d)
    (hy : (2 * (y * d - num)).natAbs ≤ d) (hlt : x < y) : isTie num d = true := by
  have hstep : (x + 1) * d ≤ y * (d : Int) := Int.mul_le_mul_of_nonneg_right hlt (by omega)
  rw [Int.add_mul, Int.one_mul] at hstep
  exact (isTie_iff hd).2 ⟨y, by omega⟩

/-- Off a tie there is one nearest integer, so the tie rules agree (R147). -/
theorem roundQuotient_eq_of_not_isTie {num : Int} {d : Nat} (hd : 0 < d) (h : ¬ isTie num d = true)
    (t u : Config.RoundTie) : roundQuotient t num d = roundQuotient u num d := by
  have ht := roundQuotient_nearest t num hd
  have hu := roundQuotient_nearest u num hd
  rcases lt_trichotomy (roundQuotient t num d) (roundQuotient u num d) with hlt | heq | hgt
  · exact absurd (isTie_of_nearest_lt hd ht hu hlt) h
  · exact heq
  · exact absurd (isTie_of_nearest_lt hd hu ht hgt) h

/-- `HALF_AWAY` rounds a tie away from 0 (R147). -/
theorem natAbs_roundQuotient_halfAway {num : Int} {d : Nat} (hd : 0 < d) (h : isTie num d = true) :
    2 * ((roundQuotient .halfAway num d).natAbs * d) = 2 * num.natAbs + d := by
  have hne : num ≠ 0 := by
    rintro rfl
    simp only [isTie, Int.mul_zero, Int.zero_emod, decide_eq_true_eq] at h
    omega
  have hup : ((roundUp num.natAbs d).natAbs : Int) = roundUp num.natAbs d :=
    Int.natAbs_of_nonneg (Int.ediv_nonneg (by omega) (by omega))
  have htie := roundUp_of_isTie hd (isTie_natAbs hd h)
  rw [← hup] at htie
  rw [roundQuotient, Int.natAbs_mul, Int.natAbs_sign_of_ne_zero hne, Nat.one_mul]
  omega

/-- `HALF_EVEN` rounds a tie to an even integer (R147). -/
theorem roundQuotient_halfEven_even {num : Int} {d : Nat} (h : isTie num d = true) :
    roundQuotient .halfEven num d % 2 = 0 := by
  rw [roundQuotient]
  split
  · omega
  · rename_i hodd
    have : ¬ roundUp num d % 2 = 1 := fun hmod => hodd ⟨h, hmod⟩
    omega

/-- Settles O41: the nearest integer is unique off a tie, and at a tie the rule says which of the two it is. -/
theorem roundingIsToNearest : Obligations.RoundingIsToNearest := by
  intro num d hd
  have hiff : isTie num d = true ↔ (2 * num) % (2 * d) = d := decide_eq_true_iff
  refine ⟨fun tie => roundQuotient_nearest tie num hd, fun hoff => ?_, fun hon => ?_⟩
  · exact roundQuotient_eq_of_not_isTie hd (hiff.not.2 hoff)
  · have htie : isTie num d = true := hiff.2 hon
    have hup : roundQuotient .halfUp num d = roundUp num d := rfl
    have htwice := roundUp_of_isTie hd htie
    exact ⟨by rw [hup]; omega, natAbs_roundQuotient_halfAway hd htie, roundQuotient_halfEven_even htie⟩

/-! ### The reads and the range of a sample -/

/-- The frame has a sample below the position of every output sample (R153). -/
theorem floorIdx_lt {n inRate outRate i : Nat} (h : i < outputSamples n inRate outRate) :
    floorIdx i inRate outRate < n :=
  Nat.div_lt_of_lt_mul (Nat.mul_comm n outRate ▸ index_mul_lt h)

theorem ceilIdx_lt {n : Nat} (f : Nat) (hn : 0 < n) : ceilIdx n f < n := by
  unfold ceilIdx
  omega

theorem outRate_pos {n inRate outRate i : Nat} (h : i < outputSamples n inRate outRate) : 0 < outRate :=
  Nat.pos_of_mul_pos_left (Nat.zero_lt_of_lt (index_mul_lt h))

/-- Settles O43: both indices are below the number of samples. -/
theorem resamplerReadsInsideTheFrame : Obligations.ResamplerReadsInsideTheFrame := by
  intro n inHz outHz i _ _ hi
  have hfloor := floorIdx_lt hi
  have hceil := ceilIdx_lt (floorIdx i inHz outHz) (Nat.zero_lt_of_lt hfloor)
  omega

/-- An interpolated value, times the denominator, does not leave an interval that holds both neighbours (R148). -/
theorem interpolate_between {a b lo hi : Int} {r d : Nat} (hr : r ≤ d) (ha : lo ≤ a ∧ a ≤ hi)
    (hb : lo ≤ b ∧ b ≤ hi) : lo * d ≤ interpolate a b r d ∧ interpolate a b r d ≤ hi * d := by
  obtain ⟨c, rfl⟩ := Nat.exists_eq_add_of_le hr
  have hweights : interpolate a b r (r + c) = a * c + b * r := by
    unfold interpolate
    push_cast
    ring
  have hr0 : (0 : Int) ≤ r := Int.natCast_nonneg r
  have hc0 : (0 : Int) ≤ c := Int.natCast_nonneg c
  rw [hweights]
  push_cast
  constructor
  · linarith [Int.mul_le_mul_of_nonneg_right ha.1 hc0, Int.mul_le_mul_of_nonneg_right hb.1 hr0]
  · linarith [Int.mul_le_mul_of_nonneg_right ha.2 hc0, Int.mul_le_mul_of_nonneg_right hb.2 hr0]

/-- An output sample does not leave an interval that holds every input sample (R148). -/
theorem linearSample_between (tie : Config.RoundTie) {f : Frame} {inRate outRate i : Nat} {lo hi : Int}
    (hrange : ∀ k, k < f.length / 2 → lo ≤ pcmRead f k ∧ pcmRead f k ≤ hi)
    (hindex : i < outputSamples (f.length / 2) inRate outRate) :
    lo ≤ linearSample tie f inRate outRate i ∧ linearSample tie f inRate outRate i ≤ hi := by
  have hfloor := floorIdx_lt hindex
  have hout := outRate_pos hindex
  have hfrac : fracNum i inRate outRate ≤ outRate := Nat.le_of_lt (Nat.mod_lt _ hout)
  obtain ⟨hlo, hhi⟩ :=
    interpolate_between hfrac (hrange _ hfloor) (hrange _ (ceilIdx_lt _ (Nat.zero_lt_of_lt hfloor)))
  exact roundQuotient_between tie hout hlo hhi

/-- Sample `i` of a resampled frame: it fits 16 bits because the input samples do (R140, R148). -/
theorem pcmRead_resampleFrame (b : Config.Build) {f : Frame} {inRate outRate i : Nat}
    (hi : i < outputSamples (f.length / 2) inRate outRate) :
    pcmRead (resampleFrame b f inRate outRate) i = linearSample b.roundTie f inRate outRate i := by
  rw [← kernelSample_eq]
  refine pcmRead_pcmFrame _ hi ?_
  rw [kernelSample_eq]
  exact linearSample_between _ (fun k _ => pcmRead_bounds f k) hi

/-- Settles O42: an output sample is a rounded interpolation of two input samples. -/
theorem resampledFrameStaysInRange : Obligations.ResampledFrameStaysInRange := by
  intro b f inHz outHz lo hi _ _ hrange i hindex
  rw [sample, pcmRead_resampleFrame b hindex]
  exact linearSample_between _ hrange hindex

/-! ### Special rates -/

/-- Settles O44: every output position is a whole one, so the samples are those of the frame. -/
theorem equalRatesGiveTheFrameBack : Obligations.EqualRatesGiveTheFrameBack := by
  intro b f hz hhz heven
  have hcount : outputSamples (f.length / 2) hz hz = f.length / 2 := Nat.mul_div_cancel _ hhz
  calc resampleFrame b f hz hz
      = pcmFrame (f.length / 2) (pcmRead f) := by
        rw [resampleFrame, hcount]
        exact pcmFrame_congr fun i _ => by rw [kernelSample_eq, linearSample_whole _ f hhz rfl]
    _ = f := pcmFrame_pcmRead (by omega)

/-- Both rates may be scaled together: the position is the same (R152). -/
theorem linearSample_scale (tie : Config.RoundTie) (f : Frame) (inRate outRate i : Nat) {g : Nat} (hg : 0 < g) :
    linearSample tie f (g * inRate) (g * outRate) i = linearSample tie f inRate outRate i := by
  have hfloor : floorIdx i (g * inRate) (g * outRate) = floorIdx i inRate outRate := by
    rw [floorIdx, Nat.mul_left_comm, Nat.mul_div_mul_left _ _ hg, floorIdx]
  have hfrac : fracNum i (g * inRate) (g * outRate) = g * fracNum i inRate outRate := by
    rw [fracNum, Nat.mul_left_comm, Nat.mul_mod_mul_left, fracNum]
  have hnum (a b : Int) (r : Nat) : interpolate a b (g * r) (g * outRate) = interpolate a b r outRate * g := by
    unfold interpolate
    push_cast
    ring
  simp only [linearSample, hfloor, hfrac, hnum, roundQuotient_scale _ _ _ hg]

/-- Settles O45: neither the number of samples nor any of them changes. -/
theorem onlyTheRatioOfTheRatesMatters : Obligations.OnlyTheRatioOfTheRatesMatters := by
  intro b f inHz outHz g _ _ hg
  have hcount : outputSamples (f.length / 2) (g * inHz) (g * outHz) = outputSamples (f.length / 2) inHz outHz := by
    rw [outputSamples, Nat.mul_left_comm, Nat.mul_div_mul_left _ _ hg, outputSamples]
  rw [resampleFrame, hcount]
  exact pcmFrame_congr fun i _ => by rw [kernelSample_eq, kernelSample_eq, linearSample_scale _ _ _ _ _ hg]

/-- Settles O46: output sample `i` stands at the whole position `i * d`. -/
theorem wholeDownSamplingKeepsEveryDthSample : Obligations.WholeDownSamplingKeepsEveryDthSample := by
  intro b f outHz d hout hd out
  have hcount : outputSamples (f.length / 2) (d * outHz) outHz = f.length / 2 / d := Nat.mul_div_mul_right _ _ hout
  constructor
  · rw [resampleFrame_length, hcount]
  · intro i hi
    rw [sample, pcmRead_resampleFrame b (hcount ▸ hi)]
    exact linearSample_whole _ f hout (Nat.mul_assoc i d outHz).symm

/-- A sample read beyond the last position is held there (R154). -/
theorem linearSample_edge (tie : Config.RoundTie) (f : Frame) {inRate outRate i : Nat} (hout : 0 < outRate)
    (hedge : floorIdx i inRate outRate = f.length / 2 - 1) :
    linearSample tie f inRate outRate i = pcmRead f (f.length / 2 - 1) := by
  have hceil : ceilIdx (f.length / 2) (f.length / 2 - 1) = f.length / 2 - 1 := by
    unfold ceilIdx
    omega
  simp only [linearSample, hedge, hceil, interpolate]
  simpa using roundQuotient_mul tie (pcmRead f (f.length / 2 - 1)) hout

/-- Settles O47: only the ratio matters (O45), and at the rates 1 and `l` the position of sample `k * l + j` is `k`
with the fraction `j / l`. -/
theorem wholeUpSamplingInterpolatesAndHoldsTheEdge : Obligations.WholeUpSamplingInterpolatesAndHoldsTheEdge := by
  intro b f inHz l hin hl n out
  have hratio : out = resampleFrame b f 1 l := by
    have hscale := onlyTheRatioOfTheRatesMatters b f 1 l inHz Nat.one_pos hl hin
    rwa [Nat.mul_one, Nat.mul_comm inHz l] at hscale
  have hcount : outputSamples n 1 l = n * l := Nat.div_one _
  rw [hratio]
  constructor
  · rw [resampleFrame_length, hcount]
  · intro k j hk hj
    have hindex : k * l + j < outputSamples n 1 l := by
      have hnext : (k + 1) * l ≤ n * l := Nat.mul_le_mul_right l hk
      rw [Nat.succ_mul] at hnext
      omega
    have hfloor : floorIdx (k * l + j) 1 l = k := by
      rw [floorIdx, Nat.mul_one, Nat.mul_comm, Nat.mul_add_div hl, Nat.div_eq_of_lt hj, Nat.add_zero]
    have hfrac : fracNum (k * l + j) 1 l = j := by
      rw [fracNum, Nat.mul_one, Nat.mul_add_mod_of_lt hj]
    rw [sample, pcmRead_resampleFrame b hindex]
    split
    · rename_i hlast
      rw [linearSample_edge _ f hl (hfloor.trans hlast), sample, hlast]
    · have hceil : ceilIdx n k = k + 1 := by
        unfold ceilIdx
        omega
      simp only [linearSample, hfloor, hfrac, interpolate]
      rw [hceil]

/-! ### RESAMPLE as an operation -/

/-- Settles O40: no check applies, so RESAMPLE ends in `Ok` with the resampled frame, whose samples are the
interpolated ones (`pcmRead_resampleFrame`). -/
theorem resampleAnswersWithTheInterpolation : Obligations.ResampleAnswersWithTheInterpolation := by
  intro q s n inHz outHz m haccept heven hin hout hproduce
  have hlen : q.frame.length / 2 = n := congrArg (· / 2) haccept.1.2.symm
  have hmask : errMask s.build (.resample q) = noError := by
    rw [errMask_resample, if_neg (by omega), if_neg (by omega)]
  refine ⟨resampleFrame s.build q.frame inHz outHz, exec_of_ok haccept hmask hproduce, ?_, ?_⟩
  · rw [resampleFrame_length, hlen]
    rfl
  · intro i hi
    rw [sample, pcmRead_resampleFrame s.build (hlen.symm ▸ hi), linearSample, hlen]
    rfl

/-- Settles O20: the checks set BAD_RATE, and ODD_LENGTH as well when `in_len` is odd. -/
theorem badRateEndsInAnError : Obligations.BadRateEndsInAnError := by
  intro q s haccept hbad
  refine exec_of_error haccept ?_ (by split <;> decide)
  rw [errMask_resample, if_pos hbad, if_pos hbad]
  rfl

end Sys2Proof.Machine
end

section
/-! PROOFS. The family of 44_pipeline.md: the frames of T2E and E2T, when an acceptable request is answered, and each
pipeline as two requests. -/

namespace Sys2Proof.Machine

/-! ### The frames of the pipelines -/

/-- Up from 8000 to 24000 every sample becomes three (R172). -/
theorem outputSamples_rateTel_rateEng (n : Nat) : outputSamples n rateTel rateEng = 3 * n := by
  unfold outputSamples rateTel rateEng
  omega

/-- Down from 24000 to 8000 three samples become one (R172). -/
theorem outputSamples_rateEng_rateTel (n : Nat) : outputSamples n rateEng rateTel = n / 3 := by
  unfold outputSamples rateTel rateEng
  omega

theorem t2eFrame_length (b : Config.Build) (f : Frame) : (t2eFrame b f).length = 6 * f.length := by
  rw [t2eFrame, resampleFrame_length, outputSamples_rateTel_rateEng, decodeFrame_length]
  omega

theorem e2tFrame_length (b : Config.Build) (f : Frame) : (e2tFrame b f).length = f.length / 2 / 3 := by
  rw [e2tFrame, encodeFrame_length, resampleFrame_length, outputSamples_rateEng_rateTel]
  omega

/-- Over an odd denominator there are no ties (R147). -/
theorem not_isTie_of_odd {num : Int} {d : Nat} (hd : d % 2 = 1) : ¬ isTie num d = true := by
  intro htie
  obtain ⟨q, hq⟩ := (isTie_iff (by omega)).1 htie
  omega

/-- The output of T2E by the samples of the decoded frame: up-sampling by the factor 3 (R162, R170). -/
theorem pcmRead_t2eFrame (b : Config.Build) {f : Frame} {k j : Nat} (hk : k < f.length) (hj : j < 3) :
    pcmRead (t2eFrame b f) (3 * k + j) =
      if k = f.length - 1 then pcmRead (decodeFrame f) k
      else roundQuotient b.roundTie
        (pcmRead (decodeFrame f) k * 3 + (pcmRead (decodeFrame f) (k + 1) - pcmRead (decodeFrame f) k) * j) 3 := by
  have hcount : (decodeFrame f).length / 2 = f.length := by
    rw [decodeFrame_length]
    omega
  have hup := (wholeUpSamplingInterpolatesAndHoldsTheEdge b (decodeFrame f) rateTel 3 (by decide) (by decide)).2 k j
    (hcount.symm ▸ hk) hj
  rw [hcount, Nat.mul_comm k 3] at hup
  exact hup

/-- The last byte of a μ-law frame is held (R154, R174). -/
theorem pcmRead_t2eFrame_last (b : Config.Build) {f : Frame} {k j : Nat} {c : Byte} (hbyte : f[k]? = some c)
    (hlast : k + 1 = f.length) (hj : j < 3) : pcmRead (t2eFrame b f) (3 * k + j) = decodeSample c := by
  rw [pcmRead_t2eFrame b (by omega) hj, if_pos (by omega), pcmRead_decodeFrame hbyte]

/-- Between two bytes T2E interpolates; a third of an integer is never a tie, so the tie rule does not matter (R147,
R174). -/
theorem pcmRead_t2eFrame_between (b : Config.Build) {f : Frame} {k j : Nat} {c d : Byte} (hbyte : f[k]? = some c)
    (hnext : f[k + 1]? = some d) (hj : j < 3) (tie : Config.RoundTie) :
    pcmRead (t2eFrame b f) (3 * k + j) =
      roundQuotient tie (decodeSample c * 3 + (decodeSample d - decodeSample c) * j) 3 := by
  have hk : k + 1 < f.length := (List.getElem?_eq_some_iff.1 hnext).1
  rw [pcmRead_t2eFrame b (by omega) hj, if_neg (by omega), pcmRead_decodeFrame hbyte, pcmRead_decodeFrame hnext]
  exact roundQuotient_eq_of_not_isTie (by decide) (not_isTie_of_odd rfl) _ _

/-- T2E puts each decoded sample at every third place (R174). -/
theorem pcmRead_t2eFrame_whole (b : Config.Build) {f : Frame} {k : Nat} {c : Byte} (hbyte : f[k]? = some c) :
    pcmRead (t2eFrame b f) (3 * k) = decodeSample c := by
  have hk : k < f.length := (List.getElem?_eq_some_iff.1 hbyte).1
  have hindex : 3 * k < outputSamples ((decodeFrame f).length / 2) rateTel rateEng := by
    rw [outputSamples_rateTel_rateEng, decodeFrame_length]
    omega
  have hposition : 3 * k * rateTel = k * rateEng := by
    unfold rateTel rateEng
    omega
  rw [t2eFrame, pcmRead_resampleFrame b hindex, linearSample_whole _ _ (by decide) hposition,
    pcmRead_decodeFrame hbyte]

/-- E2T gives the code of every third sample: down-sampling by the factor 3 (R161, R174). -/
theorem e2tFrame_getElem? (b : Config.Build) {f : Frame} {i : Nat} (hi : i < f.length / 2 / 3) :
    (e2tFrame b f)[i]? = some (encodeSample b.expRule (pcmRead f (3 * i))) := by
  obtain ⟨hlen, hsample⟩ := wholeDownSamplingKeepsEveryDthSample b f rateTel 3 (by decide) (by decide)
  have hcode : (e2tFrame b f)[i]? = some (encodeSample b.expRule (pcmRead (resampleFrame b f rateEng rateTel) i)) :=
    encodeFrame_getElem? _ (by rw [show rateEng = 3 * rateTel from rfl, hlen]; omega)
  rw [hcode, Nat.mul_comm 3 i]
  exact congrArg (fun x => some (encodeSample b.expRule x)) (hsample i hi)

/-- Settles O52: T2E puts each decoded sample at every third place, and E2T keeps exactly those places. -/
theorem pipelinesThereAndBack : Obligations.PipelinesThereAndBack := by
  intro b f
  have hlen : (t2eFrame b f).length / 2 / 3 = f.length := by
    rw [t2eFrame_length]
    omega
  apply List.ext_getElem?
  intro i
  rw [List.getElem?_map]
  by_cases hi : i < f.length
  · have hbyte : f[i]? = some f[i] := List.getElem?_eq_getElem hi
    rw [e2tFrame_getElem? b (hlen.symm ▸ hi), pcmRead_t2eFrame_whole b hbyte, hbyte]
    rfl
  · rw [List.getElem?_eq_none (by rw [e2tFrame_length, hlen]; omega), List.getElem?_eq_none (by omega)]
    rfl

/-! ### The pipelines as operations -/

/-- `out_len` of T2E (R172). -/
theorem outLen_t2e (b : Config.Build) (q : Operands) : outLen b (.t2e q) = 6 * q.inLen := by
  rw [outLen, mulawCount, outputSamples_rateTel_rateEng]
  omega

/-- `out_len` of E2T (R172). -/
theorem outLen_e2t (b : Config.Build) (q : Operands) : outLen b (.e2t q) = q.inLen / 2 / 3 :=
  outputSamples_rateEng_rateTel _

/-- Settles O48: no check applies to T2E, so it ends in `Ok` with its frame, whose samples are the closed form. -/
theorem t2eAnswersWithTheClosedForm : Obligations.T2eAnswersWithTheClosedForm := by
  intro q s haccept hproduce
  have hlen : q.inLen = q.frame.length := haccept.1.2
  have hout : producible s.build (outLen s.build (.t2e q)) := by
    rwa [outLen_t2e]
  refine ⟨t2eFrame s.build q.frame, exec_of_ok haccept (errMask_t2e _ _) hout, ?_, ?_⟩
  · rw [t2eFrame_length, hlen]
  · intro k j c hbyte hj
    exact ⟨fun hlast => pcmRead_t2eFrame_last _ hbyte (hlast.trans hlen) hj,
      fun d hnext tie => pcmRead_t2eFrame_between _ hbyte hnext hj tie⟩

/-- An even `in_len` passes the check of E2T (R173). -/
theorem errMask_e2t_of_even {b : Config.Build} {q : Operands} (heven : q.inLen % 2 = 0) :
    errMask b (.e2t q) = noError := by
  rw [errMask_e2t, if_neg (by omega)]

/-- Settles O49: E2T ends in `Ok` with its frame, whose bytes are the codes of every third sample. -/
theorem e2tAnswersWithEveryThirdSample : Obligations.E2tAnswersWithEveryThirdSample := by
  intro q s haccept heven hproduce
  have hlen : q.inLen = q.frame.length := haccept.1.2
  have hout : producible s.build (outLen s.build (.e2t q)) := by
    rwa [outLen_e2t]
  refine ⟨e2tFrame s.build q.frame, exec_of_ok haccept (errMask_e2t_of_even heven) hout, ?_, ?_⟩
  · rw [e2tFrame_length, hlen]
  · exact fun i hi => e2tFrame_getElem? _ (hlen ▸ hi)

/-! ### When an acceptable request is answered -/

/-- An acceptable request whose checks set no bit ends in `Ok` exactly when its output is producible, and with its own
frame (R77, R80). -/
theorem answersOk_iff_producible {i : Instr} {s : State} {y : Frame} (haccept : acceptable s.build i.operands)
    (hmask : errMask s.build i = noError) :
    answersOk i s y ↔ producible s.build (outLen s.build i) ∧ y = frameOf s.build i := by
  rw [answersOk_iff, barred_eq_none]
  simp [haccept, hmask]

theorem responseOf_err (b : Config.Build) (i : Instr) : (responseOf b i).err = errMask b i := by
  unfold responseOf
  split
  · rename_i hmask
    exact hmask.symm
  · rfl

/-- An acceptable request ends in an error exactly when that is what its checks set (R77, R187). -/
theorem answersError_iff_errMask {i : Instr} {s : State} {m : BitVec 3} (haccept : acceptable s.build i.operands)
    (hm : m ≠ noError) : answersError i s m ↔ errMask s.build i = m := by
  constructor
  · intro h
    obtain ⟨-, hstate⟩ := exec_next h
    have hresponse : errorResponse m = responseOf s.build i := by
      simpa [errorResponse] using congrArg State.record hstate
    rw [← responseOf_err, ← hresponse, errorResponse]
  · exact fun hmask => exec_of_error haccept hmask hm

/-! ### The wired rates in the fields of a request -/

/-- From 16 bits on, a rate field holds every rate below 32768, 24000 among them, as a positive number (R75). -/
theorem lt_half_of_rateW {w r : Nat} (hw : 16 ≤ w) (hr : r < 32768) : r < 2 ^ (w - 1) :=
  calc r < 2 ^ 15 := hr
    _ ≤ 2 ^ (w - 1) := Nat.pow_le_pow_right (by decide) (by omega)

theorem lt_two_pow_rateW {w r : Nat} (hw : 16 ≤ w) (hr : r < 32768) : r < 2 ^ w :=
  Nat.lt_of_lt_of_le (lt_half_of_rateW hw hr) (Nat.pow_le_pow_right (by decide) (by omega))

theorem signedRate_eq {b : Config.Build} {r : Nat} (hw : 16 ≤ b.rateW) (hr : r < 32768) : signedRate b r = r :=
  if_pos (lt_half_of_rateW hw hr)

theorem rateHz_eq {b : Config.Build} {r : Nat} (hw : 16 ≤ b.rateW) (hr : r < 32768) : rateHz b r = r := by
  rw [rateHz, signedRate_eq hw hr, Int.toNat_natCast]

/-- With positive rates that their fields hold, RESAMPLE checks only that `in_len` is even (R181, R182). -/
theorem errMask_resample_of_rates {b : Config.Build} {inRate outRate len : Nat} {f : Frame} (hw : 16 ≤ b.rateW)
    (hin : 0 < inRate ∧ inRate < 32768) (hout : 0 < outRate ∧ outRate < 32768) :
    errMask b (.resample ⟨inRate, outRate, len, f⟩) = if len % 2 = 1 then errOddLength else noError := by
  have hrates : ¬ (signedRate b inRate ≤ 0 ∨ signedRate b outRate ≤ 0) := by
    rw [signedRate_eq hw hin.2, signedRate_eq hw hout.2]
    omega
  rw [errMask_resample, if_neg hrates, if_neg hrates]

/-- When RESAMPLE answers an acceptable request of an even length at such rates (R140). -/
theorem answersOk_resample_iff {inRate outRate len : Nat} {f : Frame} {s : State} {y : Frame}
    (hw : 16 ≤ s.build.rateW) (haccept : acceptable s.build ⟨inRate, outRate, len, f⟩) (heven : len % 2 = 0)
    (hin : 0 < inRate ∧ inRate < 32768) (hout : 0 < outRate ∧ outRate < 32768) :
    answersOk (.resample ⟨inRate, outRate, len, f⟩) s y ↔
      producible s.build (2 * outputSamples (len / 2) inRate outRate) ∧
        y = resampleFrame s.build f inRate outRate := by
  have hmask : errMask s.build (.resample ⟨inRate, outRate, len, f⟩) = noError := by
    rw [errMask_resample_of_rates hw hin hout, if_neg (by omega)]
  rw [answersOk_iff_producible haccept hmask, outLen, frameOf, rateHz_eq hw hin.2, rateHz_eq hw hout.2, pcmCount]

theorem producible_of_le {b : Config.Build} {m n : Nat} (h : producible b n) (hle : m ≤ n) : producible b m :=
  ⟨Nat.le_trans hle h.1, Nat.lt_of_le_of_lt hle h.2⟩

/-- A frame a response can hold is acceptable as the input of the next request, when it is within MAX_IN_BYTES. -/
theorem acceptable_of_producible {b : Config.Build} {w : Frame} {inRate outRate : Nat}
    (hrates : inRate < 2 ^ b.rateW ∧ outRate < 2 ^ b.rateW) (hproduce : producible b w.length)
    (hmax : w.length ≤ b.maxInBytes) : acceptable b ⟨inRate, outRate, w.length, w⟩ :=
  ⟨⟨⟨hrates.1, hrates.2, hproduce.2⟩, rfl⟩, hmax⟩

/-! ### Each pipeline as two requests -/

/-- What RESAMPLE 8000 24000 answers to the decoded frame: the frame of T2E (R170). -/
theorem answersOk_resample_decodeFrame_iff {f : Frame} {s : State} {y : Frame} (hw : 16 ≤ s.build.rateW)
    (hproduce : producible s.build (2 * f.length)) (hmax : 2 * f.length ≤ s.build.maxInBytes) :
    answersOk (.resample ⟨8000, 24000, (decodeFrame f).length, decodeFrame f⟩) s y ↔
      producible s.build (6 * f.length) ∧ y = t2eFrame s.build f := by
  have hlen : (decodeFrame f).length = 2 * f.length := decodeFrame_length f
  have haccept : acceptable s.build ⟨8000, 24000, (decodeFrame f).length, decodeFrame f⟩ :=
    acceptable_of_producible ⟨lt_two_pow_rateW hw (by decide), lt_two_pow_rateW hw (by decide)⟩ (hlen ▸ hproduce)
      (hlen ▸ hmax)
  have hcount : 2 * outputSamples ((decodeFrame f).length / 2) rateTel rateEng = 6 * f.length := by
    rw [outputSamples_rateTel_rateEng, hlen]
    omega
  have heven : (decodeFrame f).length % 2 = 0 := by
    rw [hlen]
    omega
  rw [answersOk_resample_iff hw haccept heven (by decide) (by decide), ← hcount]
  rfl

/-- Settles O50: DECODE answers with the decoded frame, and RESAMPLE on it with the frame of T2E. Both outputs are
producible when that of T2E is, which is three times as long as the decoded frame. -/
theorem t2eEqualsDecodeThenResample : Obligations.T2eEqualsDecodeThenResample := by
  intro q s y hw haccept hmax
  have hlen : q.inLen = q.frame.length := haccept.1.2
  have ht2e : answersOk (.t2e q) s y ↔ producible s.build (6 * q.inLen) ∧ y = t2eFrame s.build q.frame := by
    rw [answersOk_iff_producible haccept (errMask_t2e _ _), outLen_t2e, frameOf]
  have hdecode (w : Frame) :
      answersOk (.decode q) s w ↔ producible s.build (2 * q.inLen) ∧ w = decodeFrame q.frame :=
    answersOk_iff_producible haccept (errMask_decode _ _)
  rw [ht2e]
  rw [hlen] at hdecode hmax ⊢
  constructor
  · rintro ⟨hproduce, rfl⟩
    have hmiddle : producible s.build (2 * q.frame.length) := producible_of_le hproduce (by omega)
    exact ⟨decodeFrame q.frame, (hdecode _).2 ⟨hmiddle, rfl⟩,
      (answersOk_resample_decodeFrame_iff hw hmiddle hmax).2 ⟨hproduce, rfl⟩⟩
  · rintro ⟨w, hfirst, hsecond⟩
    obtain ⟨hmiddle, rfl⟩ := (hdecode w).1 hfirst
    exact (answersOk_resample_decodeFrame_iff hw hmiddle hmax).1 hsecond

/-- The first request of E2T in two is acceptable when E2T's is: they differ in their rates (R71). -/
theorem acceptable_rateEng_rateTel {b : Config.Build} {q : Operands} (hw : 16 ≤ b.rateW) (h : acceptable b q) :
    acceptable b { q with inRate := 24000, outRate := 8000 } := by
  obtain ⟨⟨hin, hout, -⟩, -⟩ := h.1
  exact (acceptable_replaceRates hin hout (lt_two_pow_rateW hw (by decide)) (lt_two_pow_rateW hw (by decide))).2 h

/-- When ENCODE answers an acceptable request of an even length (R120). -/
theorem answersOk_encode_iff {q : Operands} {s : State} {y : Frame} (haccept : acceptable s.build q)
    (heven : q.inLen % 2 = 0) :
    answersOk (.encode q) s y ↔ producible s.build (q.inLen / 2) ∧ y = encodeFrame s.build.expRule q.frame := by
  have hmask : errMask s.build (.encode q) = noError := by
    rw [errMask_encode, if_neg (by omega)]
  exact answersOk_iff_producible haccept hmask

/-- What ENCODE answers to the down-sampled frame: the frame of E2T (R171). -/
theorem answersOk_encode_resampleFrame_iff {f w : Frame} {s : State} {y : Frame}
    (hframe : w = resampleFrame s.build f rateEng rateTel) (hproduce : producible s.build (2 * (f.length / 2 / 3)))
    (hmax : f.length ≤ s.build.maxInBytes) :
    answersOk (.encode ⟨0, 0, w.length, w⟩) s y ↔ y = e2tFrame s.build f := by
  have hlen : w.length = 2 * (f.length / 2 / 3) := by
    rw [hframe, resampleFrame_length, outputSamples_rateEng_rateTel]
  have hzero : 0 < 2 ^ s.build.rateW := Nat.two_pow_pos _
  have haccept : acceptable s.build ⟨0, 0, w.length, w⟩ :=
    acceptable_of_producible ⟨hzero, hzero⟩ (hlen ▸ hproduce) (by omega)
  have heven : w.length % 2 = 0 := by omega
  have hcodes : producible s.build (w.length / 2) := producible_of_le hproduce (by omega)
  rw [answersOk_encode_iff haccept heven, e2tFrame, ← hframe]
  exact and_iff_right hcodes

/-- On an even length: RESAMPLE answers with the down-sampled frame, and ENCODE on it with the frame of E2T. -/
theorem answersOk_e2t_iff_of_even {q : Operands} {s : State} {y : Frame} (hw : 16 ≤ s.build.rateW)
    (haccept : acceptable s.build q) (hproduce : producible s.build (2 * (q.inLen / 2 / 3)))
    (heven : q.inLen % 2 = 0) :
    answersOk (.e2t q) s y ↔
      ∃ w, answersOk (.resample { q with inRate := 24000, outRate := 8000 }) s w ∧
        answersOk (.encode ⟨0, 0, w.length, w⟩) s y := by
  have hlen : q.inLen = q.frame.length := haccept.1.2
  have he2t : answersOk (.e2t q) s y ↔ y = e2tFrame s.build q.frame := by
    rw [answersOk_iff_producible haccept (errMask_e2t_of_even heven), outLen_e2t]
    exact and_iff_right (producible_of_le hproduce (by omega))
  have hfirst (w : Frame) : answersOk (.resample { q with inRate := 24000, outRate := 8000 }) s w ↔
      w = resampleFrame s.build q.frame rateEng rateTel := by
    rw [answersOk_resample_iff hw (acceptable_rateEng_rateTel hw haccept) heven (by decide) (by decide)]
    exact and_iff_right ((outputSamples_rateEng_rateTel (q.inLen / 2)).symm ▸ hproduce)
  simp only [hfirst, exists_eq_left]
  rw [he2t, answersOk_encode_resampleFrame_iff rfl (hlen ▸ hproduce) (hlen ▸ haccept.2)]

/-- Settles O51: the two check the same, that `in_len` is even. When it is odd neither ends in `Ok`, and when it is
even the stages answer with the frames of R171. -/
theorem e2tEqualsResampleThenEncode : Obligations.E2tEqualsResampleThenEncode := by
  intro q s y hw haccept first
  have hmask : errMask s.build first = errMask s.build (.e2t q) := by
    rw [errMask_resample_of_rates hw (by decide) (by decide), errMask_e2t]
  refine ⟨fun hproduce => ?_, ?_⟩
  · rcases Nat.mod_two_eq_zero_or_one q.inLen with heven | hodd
    · exact answersOk_e2t_iff_of_even hw haccept hproduce heven
    · have herror : errMask s.build (.e2t q) ≠ noError := by
        rw [errMask_e2t, if_pos hodd]
        decide
      simp [answersOk_iff, hmask, herror]
  · rw [answersError_iff_errMask haccept (by decide),
      answersError_iff_errMask (acceptable_rateEng_rateTel hw haccept) (by decide), hmask]

end Sys2Proof.Machine
end

section
/-! PROOFS. The family of 60_exceptions.md: a held request is always answered, no step from a good state faults, and
the error masks that occur. -/

namespace Sys2Proof.Machine

/-! ### Totality of a step from a good state -/

/-- A good BUSY core holds a request that decodes and is not barred (R29). -/
theorem exists_held_of_inv {s : State} (hinv : s.Inv) (hphase : s.phase = .busy) :
    ∃ rq i, s.req = some rq ∧ decodeRequest s.build rq = .ok i ∧ barred s.build i = none := by
  obtain ⟨hhandshake, -⟩ := hinv
  cases hreq : s.req with
  | none => simp [handshakeOk, hphase, hreq] at hhandshake
  | some rq =>
    obtain ⟨i, hdecode, hbarred⟩ := (handshakeOk_busy hphase hreq).1 hhandshake
    exact ⟨rq, i, rfl, hdecode, hbarred⟩

/-- COMPLETE on any plan that does not reset: the held request, which is not barred, gets its response, and a pass of
the host is used up. -/
theorem step_eq_emit_takePass {s : State} {rq : Request} {i : Instr} (hreset : ∀ rest, s.host ≠ .reset :: rest)
    (hphase : s.phase = .busy) (hreq : s.req = some rq) (hdecode : decodeRequest s.build rq = .ok i)
    (hbarred : barred s.build i = none) : step s = .next (emit rq (responseOf s.build i) (takePass s)) := by
  obtain ⟨-, -, hsame⟩ := decodeRequest_ok hdecode
  have hbarred' : barred (takePass s).build i = none := by rwa [takePass_build]
  rw [step_of_busy hreset hphase hreq hdecode, exec_of_not_barred hbarred', hsame, takePass_build]

/-- Settles O10: the request that a good BUSY core holds is not barred, so COMPLETE emits its response, which fits
it (`responseOf_fits`). -/
theorem heldRequestIsAlwaysAnswered : Obligations.HeldRequestIsAlwaysAnswered := by
  intro s hinv hphase hreset
  obtain ⟨rq, i, hreq, hdecode, hbarred⟩ := exists_held_of_inv hinv hphase
  refine ⟨rq, responseOf s.build i, _, hreq, step_eq_emit_takePass hreset hphase hreq hdecode hbarred,
    responseOf_fits hdecode hbarred, emit_phase .., emit_req .., ?_, ?_⟩
  · rw [emit_build, takePass_build]
  · rw [emit_record, takePass_record]

/-- RESET is possible in every state (R200). -/
theorem step_of_reset {s : State} {rest : List HostEvent} (h : s.host = .reset :: rest) :
    step s = .next (performReset s) :=
  if_pos (resetPending_iff.2 ⟨rest, h⟩)

/-- An IDLE core that is not reset accepts or waits (R34, R209). -/
theorem step_of_idle {s : State} (hreset : ∀ rest, s.host ≠ .reset :: rest) (hphase : s.phase = .idle) :
    step s = idleStep s := by
  simp [step, resetPending_false hreset, hphase]

/-- Neither accepting nor waiting faults (R189). -/
theorem idleStep_ne_fault (s : State) (f : Fault) : idleStep s ≠ .fault f := by
  unfold idleStep
  split
  case h_4 rq rest hhost => exact accept_ne_fault rq (dropEvent s) f
  all_goals exact nofun

/-- Settles O11: a reset has a next state, a good BUSY core has one by O10, and an IDLE core accepts or waits. -/
theorem goodStateNeverFaults : Obligations.GoodStateNeverFaults := by
  intro s f hinv
  by_cases hreset : ∃ rest, s.host = .reset :: rest
  · obtain ⟨rest, hhost⟩ := hreset
    rw [step_of_reset hhost]
    exact nofun
  · have hreset : ∀ rest, s.host ≠ .reset :: rest := not_exists.1 hreset
    cases hphase : s.phase with
    | idle =>
      rw [step_of_idle hreset hphase]
      exact idleStep_ne_fault s f
    | busy =>
      obtain ⟨-, -, t, -, hstep, -⟩ := heldRequestIsAlwaysAnswered s hinv hphase hreset
      rw [hstep]
      exact nofun

/-! ### The error masks that occur -/

/-- Only RESAMPLE has two checks: the mask of any other operation has at most one bit, and that is not BAD_RATE. -/
theorem eq_resample_or_errMask_mem (b : Config.Build) (i : Instr) :
    (∃ q, i = .resample q) ∨ errMask b i ∈ [noError, errOddLength, errIllegalOp] := by
  cases i with
  | resample q => exact .inl ⟨q, rfl⟩
  | encode q =>
    rw [errMask_encode]
    exact .inr (by split <;> decide)
  | e2t q =>
    rw [errMask_e2t]
    exact .inr (by split <;> decide)
  | decode q => exact .inr (by simp)
  | t2e q => exact .inr (by simp)
  | reserved5 q => exact .inr (by simp)
  | reserved6 q => exact .inr (by simp)
  | reserved7 q => exact .inr (by simp)

/-- RESAMPLE never sets ILLEGAL_OP. -/
theorem errMask_resample_le (b : Config.Build) (q : Operands) : (errMask b (.resample q)).toNat ≤ 3 := by
  rw [errMask_resample]
  split <;> split <;> decide

/-- No mask is above ILLEGAL_OP (R186). -/
theorem errMask_le (b : Config.Build) (i : Instr) : (errMask b i).toNat ≤ 4 := by
  rcases eq_resample_or_errMask_mem b i with ⟨q, rfl⟩ | hmem
  · exact Nat.le_succ_of_le (errMask_resample_le b q)
  · have hsmall : ∀ m ∈ [noError, errOddLength, errIllegalOp], m.toNat ≤ 4 := by decide
    exact hsmall _ hmem

/-- The only combination of two causes is in RESAMPLE (R186). -/
theorem eq_resample_of_errMask {b : Config.Build} {i : Instr} (h : errMask b i = 0b011) : ∃ q, i = .resample q := by
  refine (eq_resample_or_errMask_mem b i).resolve_right ?_
  rw [h]
  decide

/-- The operands with a frame, its length and both rates 0. -/
def zeroRateOperands (f : Frame) : Operands := ⟨0, 0, f.length, f⟩

theorem zeroRateOperands_wf {b : Config.Build} {f : Frame} (h : f.length < 2 ^ b.lenW) : (zeroRateOperands f).WF b :=
  ⟨⟨Nat.two_pow_pos _, Nat.two_pow_pos _, h⟩, rfl⟩

/-- A rate of 0 is not positive at any width, so RESAMPLE sets BAD_RATE, and ODD_LENGTH as the frame has it. -/
theorem errMask_resample_zeroRateOperands (b : Config.Build) (f : Frame) :
    errMask b (.resample (zeroRateOperands f)) = if f.length % 2 = 1 then 0b011 else errBadRate := by
  have hbad : signedRate b (zeroRateOperands f).inRate ≤ 0 ∨ signedRate b (zeroRateOperands f).outRate ≤ 0 :=
    .inl (by simp [zeroRateOperands, signedRate, sext])
  rw [errMask_resample, if_pos hbad, if_pos hbad]
  rfl

/-- Each of the five masks occurs, the odd ones with a frame of one byte (R186). -/
theorem exists_errMask_eq {b : Config.Build} (hlen : 1 ≤ b.lenW) {m : BitVec 3} (hm : m.toNat ≤ 4) :
    ∃ i : Instr, i.WF b ∧ errMask b i = m := by
  have hempty : (zeroRateOperands []).WF b := zeroRateOperands_wf (Nat.two_pow_pos _)
  have hbyte : (zeroRateOperands [0]).WF b := zeroRateOperands_wf (Nat.one_lt_two_pow (by omega))
  have hmasks : ∀ m : BitVec 3, m.toNat ≤ 4 → m = 0b000 ∨ m = 0b001 ∨ m = 0b010 ∨ m = 0b011 ∨ m = 0b100 := by decide
  rcases hmasks m hm with rfl | rfl | rfl | rfl | rfl
  · exact ⟨.decode (zeroRateOperands []), hempty, errMask_decode ..⟩
  · exact ⟨.encode (zeroRateOperands [0]), hbyte, errMask_encode ..⟩
  · exact ⟨.resample (zeroRateOperands []), hempty, errMask_resample_zeroRateOperands ..⟩
  · exact ⟨.resample (zeroRateOperands [0]), hbyte, errMask_resample_zeroRateOperands ..⟩
  · exact ⟨.reserved5 (zeroRateOperands []), hempty, errMask_reserved5 ..⟩

/-- Settles O22: the bound, the combination and the five occurrences are the lemmas above. -/
theorem reachableErrorMasks : Obligations.ReachableErrorMasks :=
  fun b => ⟨fun i => ⟨errMask_le b i, eq_resample_of_errMask⟩, fun hlen _ hm => exists_errMask_eq hlen hm⟩

end Sys2Proof.Machine
end

section
/-! PROOFS. The family of 70_reset_and_hazards.md: what a reset leaves, and how an IDLE core waits. -/

namespace Sys2Proof.Machine

/-- RESET on a given plan of the host: IDLE, nothing held, the reset used up and noted (R200, log entries 2 and 3). -/
theorem performReset_of_host {s : State} {e : HostEvent} {rest : List HostEvent} (h : s.host = e :: rest) :
    performReset s = { s with phase := .idle, req := none, host := rest, record := s.record ++ [.reset] } := by
  rw [performReset, dropEvent_of_host h]

/-- Settles O2: the step is RESET (`step_of_reset`), whatever the phase and the held request. -/
theorem resetDropsTheRequestAndEmitsNothing : Obligations.ResetDropsTheRequestAndEmitsNothing := by
  intro s rest hhost
  rw [step_of_reset hhost, performReset_of_host hhost]

/-- With no plan of the host, an IDLE core waits and nothing changes (log entry 13). -/
theorem idleStep_of_nil {s : State} (h : s.host = []) : idleStep s = .next s := by
  simp [idleStep, h]

/-- On a pass of the host, an IDLE core waits and the pass is used up (log entries 12 and 13). -/
theorem idleStep_of_pass {s : State} {rest : List HostEvent} (h : s.host = .pass :: rest) :
    idleStep s = .next { s with host := rest } := by
  rw [← dropEvent_of_host h]
  simp [idleStep, h]

/-- Settles O4: in both clauses the host does not reset, so the step is `idleStep`. -/
theorem idleCoreWaitsForTheHost : Obligations.IdleCoreWaitsForTheHost := by
  intro s hphase
  constructor
  · intro hhost
    rw [step_of_idle (by simp [hhost]) hphase, idleStep_of_nil hhost]
  · intro rest hhost
    rw [step_of_idle (by simp [hhost]) hphase, idleStep_of_pass hhost]

end Sys2Proof.Machine
end
